-- ==== Sys2Proof/Word.lean ====
section
/-! DEFINITION. The byte and the three-byte frame: the only quantities the block moves (R4, R50). -/

namespace Sys2Proof

/-- A byte, unsigned, 8 bits (R4, BYTE_W). -/
abbrev Byte := BitVec 8

/-- A frame of three bytes (R4 FRAME_LEN, R50); `b0` is byte 0, the first handed to the Transport (R33). -/
structure Frame where
  b0 : Byte
  b1 : Byte
  b2 : Byte
  deriving DecidableEq, Repr

end Sys2Proof
end

