-- ==== Sys2Proof/Config.lean ====
section
/-! DEFINITION. The parameters of the block (R4): the constants the source fixes, the seven register addresses (R31),
the spec's own defaults, and the values the spec leaves OPEN as constants without a body. -/

namespace Sys2Proof.Config

/-! ### Constants fixed by the source (R4) -/

/-- FRAME_LEN: bytes in a request and in a response (R4, R50). -/
def frameLen : Nat := 3
/-- HEADER: opcode bits 7 to 4 (R4, R51). -/
def header : BitVec 4 := 0x4#4
/-- NBOARDS: distinct board addresses, three address bits (R4, R32). -/
def nBoards : Nat := 8
/-- READ_FILL: the data byte of a read request (R4, R55). -/
def readFill : Byte := 0x00#8

/-! ### The seven register addresses (R31), under the names of R64 -/

def dirA : Byte := 0x00#8
def dirB : Byte := 0x01#8
def config : Byte := 0x0A#8
def pullupA : Byte := 0x0C#8
def pullupB : Byte := 0x0D#8
def portA : Byte := 0x12#8
def portB : Byte := 0x13#8

/-! ### The spec's own choices -/

/-- BOARD_W, the width of the board-index input; the spec's default (R4, D1). No operation of the model depends on it:
every one takes any unsigned board index (log 5). -/
def boardW : Nat := 3

/-- The four data bytes the bring-up writes (R112): parameters of the routine. -/
structure BringUpValues where
  haenValue : Byte
  allOutputs : Byte
  allInputs : Byte
  allPullups : Byte
  deriving DecidableEq, Repr

/-- PRESUMED (D21, from general knowledge, not in the source; log 18): the values the spec gives the four parameters. -/
def bringUpValues : BringUpValues :=
  { haenValue := 0x08#8, allOutputs := 0x00#8, allInputs := 0xFF#8, allPullups := 0xFF#8 }

/-! ### OPEN values: constants without a body -/

/-- Order of the bits of a byte on the serial line. -/
inductive BitOrder where
  | msbFirst
  | lsbFirst
  deriving DecidableEq, Repr, Inhabited

/-- The parameters of the serial link (R4, R34, D12): they belong to the Transport and no rule of the block reads one. -/
structure SerialLink where
  bitOrder : BitOrder
  mode : Nat
  speed : Nat
  delay : Nat
  bitsPerWord : Nat
  csChange : Bool
  devicePath : String
  deriving DecidableEq, Repr, Inhabited

/-- The serial link of this machine: OPEN (D12, log 21). -/
opaque serialLink : SerialLink

/-- The three kinds of pin-item view object (R115). -/
inductive ViewKind where
  | led
  | relay
  | switch
  deriving DecidableEq, Repr

/-- The pin number of the view object of this kind and index: not stated (N17), a free value (log 20). -/
opaque viewPin : ViewKind → Nat → Nat

end Sys2Proof.Config
end

