-- ==== Sys2Proof/Syntax.lean ====
section
/-! DEFINITION. The instructions, one constructor per row of spec/opcode_table.json, and the two forms in which the Host
asks for one: a command on the command port (R15, R61) and a call of the pure function OPCODE (R63, R70). -/

namespace Sys2Proof

/-- The direction of a transaction (R53): Read = 1, Write = 0. -/
inductive Dir where
  | write
  | read
  deriving DecidableEq, Repr

/-- The instructions. A board index is an unsigned integer of any width, as the parameter BOARD_W allows (R4, D1,
log 5); a register address and a data byte are bytes (R54, R55). -/
inductive Instr where
  /-- WRITE_REGISTER(reg, data, board) (R81), format REQ. -/
  | writeRegister (board : Nat) (reg data : Byte)
  /-- READ_REGISTER(reg, board) (R80), format REQ. It has no data operand: `cmd_data` is ignored (R55, D7). -/
  | readRegister (board : Nat) (reg : Byte)
  /-- OPCODE.W: the pure function OPCODE(board, Write) (R70), format OPBYTE. -/
  | opcodeW (board : Nat)
  /-- OPCODE.R: the pure function OPCODE(board, Read) (R70), format OPBYTE. -/
  | opcodeR (board : Nat)
  deriving DecidableEq, Repr

/-- The payload of the command port while `cmd_valid = 1` (R15): (cmd_dir, cmd_board, cmd_reg, cmd_data), not packed
into a word (R61). -/
structure Command where
  dir : Dir
  board : Nat
  reg : Byte
  data : Byte
  deriving DecidableEq, Repr

/-- A call of the pure function OPCODE by the Host (R63: `opcode(board_index, direction)`). -/
structure OpcodeCall where
  board : Nat
  dir : Dir
  deriving DecidableEq, Repr

/-- The board operand of an instruction. -/
def Instr.board : Instr → Nat
  | .writeRegister b _ _ => b
  | .readRegister b _ => b
  | .opcodeW b => b
  | .opcodeR b => b

end Sys2Proof
end

