-- ==== Sys2Proof/WellFormed.lean ====
section
/-! DEFINITION. Which instructions an encoding can carry, and which commands the port can carry. The block itself checks
nothing (R52, R58, R60): an instruction that is not well formed still runs, its board index reduced modulo 8. -/

namespace Sys2Proof

/-- The board index lies in 0 to 7, the values the three-bit field `a` can hold (R32, R52). The register and data
operands are bytes and every byte is admitted (R58, R59). -/
def Instr.wellFormed (i : Instr) : Bool := decide (i.board < Config.nBoards)

/-- The board operand fits the BOARD_W bits of `cmd_board` (R15, R60, R61). -/
def Command.onPort (c : Command) : Bool := decide (c.board < 2 ^ Config.boardW)

/-- The argument of the call fits a board index of BOARD_W bits (R70). -/
def OpcodeCall.onPort (q : OpcodeCall) : Bool := decide (q.board < 2 ^ Config.boardW)

end Sys2Proof
end

