-- ==== Sys2Proof/Decode.lean ====
section
/-! DEFINITION. Decoding and encoding, both from the layouts of 30_encoding.md (R50, R51, R57), and UNFRAME (R73). The
opcode FORMULA of R70 is in Machine/Codec.lean: that layout and formula agree is a statement, not a definition. -/

namespace Sys2Proof

/-- The direction bit `w` (R53). -/
def Dir.bit : Dir → BitVec 1
  | .write => 0#1
  | .read => 1#1

/-- The direction a bit `w` stands for (R53). -/
def Dir.ofBit (w : BitVec 1) : Dir := if w = 1#1 then .read else .write

/-- A frame as the 24-bit number `b0 ∥ b1 ∥ b2` (R50, D11). -/
def Frame.toBits (f : Frame) : BitVec 24 := f.b0 ++ f.b1 ++ f.b2

/-- The frame of a 24-bit number, byte 0 in bits 23 to 16 (R50, D11). -/
def Frame.ofBits (v : BitVec 24) : Frame :=
  ⟨v.extractLsb' 16 8, v.extractLsb' 8 8, v.extractLsb' 0 8⟩

/-- The fields of format REQ (R50). -/
structure ReqFields where
  a : BitVec 3
  w : Dir
  r : Byte
  d : Byte
  deriving DecidableEq, Repr

/-- The address field and direction of an opcode byte (R51), or `none` where bits 7 to 4 are not the header. -/
def opcodeFields (op : Byte) : Option (BitVec 3 × Dir) :=
  if op.extractLsb' 4 4 = Config.header then
    some (op.extractLsb' 1 3, Dir.ofBit (op.extractLsb' 0 1))
  else none

/-- UNFRAME (R73): the fields of a request frame, `none` standing for NotThisBlock. Total; a read frame whose data byte
is not zero is decoded as a read with that byte. -/
def unframe (f : Frame) : Option ReqFields :=
  match opcodeFields f.b0 with
  | some (a, w) => some ⟨a, w, f.b1, f.b2⟩
  | none => none

/-- Why bytes are no instruction of the block. -/
inductive DecodeError where
  /-- Neither one byte (format OPBYTE) nor three (format REQ) (R50, R57, R62). -/
  | badLength (n : Nat)
  /-- The header is not `0100`: "not a frame of this block" (R58). -/
  | notThisBlock
  /-- A read frame whose data byte is not READ_FILL: never produced, no match of READ_REGISTER's row (R57, R58). -/
  | readFillNotZero
  deriving DecidableEq, Repr

/-- The instruction that an instruction's bytes stand for, byte 0 first (R33), or the reason there is none. -/
def decode : List Byte → Except DecodeError Instr
  | [op] =>
    match opcodeFields op with
    | some (a, .write) => .ok (.opcodeW a.toNat)
    | some (a, .read) => .ok (.opcodeR a.toNat)
    | none => .error .notThisBlock
  | [op, r, d] =>
    match unframe ⟨op, r, d⟩ with
    | some ⟨a, .write, r, d⟩ => .ok (.writeRegister a.toNat r d)
    | some ⟨a, .read, r, d⟩ => if d = Config.readFill then .ok (.readRegister a.toNat r) else .error .readFillNotZero
    | none => .error .notThisBlock
  | bs => .error (.badLength bs.length)

/-- The opcode byte by its LAYOUT (R51): header, three address bits (R52), direction. -/
def encodeOpcode (board : Nat) (w : Dir) : Byte := Config.header ++ BitVec.ofNat 3 board ++ w.bit

/-- The bytes of an instruction, byte 0 first (R50, R57). -/
def encode : Instr → List Byte
  | .writeRegister b r d => [encodeOpcode b .write, r, d]
  | .readRegister b r => [encodeOpcode b .read, r, Config.readFill]
  | .opcodeW b => [encodeOpcode b .write]
  | .opcodeR b => [encodeOpcode b .read]

/-- The bytes of a table word of `nbits` bits as the table numbers them: a REQ row is ONE 24-bit number whose bits 23 to
16 are byte 0 (opcode_table.json `byte_order`, D11, log 23). -/
def tableBytes (nbits w : Nat) : List Byte :=
  if nbits = 24 then
    let f := Frame.ofBits (BitVec.ofNat 24 w)
    [f.b0, f.b1, f.b2]
  else if nbits = 8 then [BitVec.ofNat 8 w]
  else []

/-- The instruction the decoder reads from a word of the opcode table. -/
def decodeTableWord (nbits w : Nat) : Option Instr :=
  match decode (tableBytes nbits w) with
  | .ok i => some i
  | .error _ => none

/-- The instruction an accepted command is: `cmd_dir` selects it (R61) and `cmd_data` of a read is ignored (R55). -/
def Command.toInstr (c : Command) : Instr :=
  match c.dir with
  | .write => .writeRegister c.board c.reg c.data
  | .read => .readRegister c.board c.reg

/-- The instruction a call of OPCODE is. -/
def OpcodeCall.toInstr (q : OpcodeCall) : Instr :=
  match q.dir with
  | .write => .opcodeW q.board
  | .read => .opcodeR q.board

end Sys2Proof
end

