-- ==== Sys2Proof/Machine/State.lean ====
section
/-! DEFINITION. The state of the machine: the block's one bit, its ports, the environment its behaviour depends on
(R12, R15 to R20, R23), the observation (R89), and the choices of the environment still to come (log 2). Plain data. -/

namespace Sys2Proof.Machine

/-- ErrCode (R4, R134, D5): `InitError` and a collection of platform I/O errors distinct from it. The block never
inspects a value of this type (log 6). -/
inductive ErrCode where
  | initError
  | io (code : Nat)
  deriving DecidableEq, Repr

/-- What the Transport presents on the response port (R17). -/
inductive Answer where
  | ok (rx : Frame)
  | err (e : ErrCode)
  deriving DecidableEq, Repr

/-- What the block delivers on the result port (R18): no data byte exists in the error case (U8). -/
inductive Result where
  | ok (b : Byte)
  | err (e : ErrCode)
  deriving DecidableEq, Repr

/-- The lifecycle of the Transport (R19): NeverOpened, Open, Closed. -/
inductive TState where
  | neverOpened
  | opened
  | closed
  deriving DecidableEq, Repr

/-- How the platform's open call ends (R19, C13). -/
inductive OpenOutcome where
  | succeeds
  /-- The device node is missing or unavailable: the Host gets `InitError`. -/
  | nodeUnavailable
  /-- Any other failure: the Host gets the platform's I/O error. -/
  | platformError (code : Nat)
  deriving DecidableEq, Repr

/-- How an OPEN Transport answers a frame, when it answers (R38 (b)): a response frame, any (R39), or a platform I/O
error, any (R132). -/
inductive TransportChoice where
  | ok (rx : Frame)
  | ioError (code : Nat)
  deriving DecidableEq, Repr

/-- One choice of the environment: what the Host or the Transport does next (log 2). -/
inductive Move where
  /-- The Host drives the command port: `some c` is `cmd_valid = 1` with the operands of `c` (R15). -/
  | drive (p : Option Command)
  /-- The Host calls the pure function OPCODE (R63, R70). -/
  | callOpcode (q : OpcodeCall)
  /-- The Host calls `open()`, which ends so (R19). -/
  | openTransport (r : OpenOutcome)
  /-- The Host calls `close(handle)` (R19). -/
  | closeTransport
  /-- The Transport presents a response (R17, R38). -/
  | answer (a : TransportChoice)
  /-- A reset in the middle of a run (R152): refused. -/
  | reset
  deriving DecidableEq, Repr

/-- An event of the trace (R89). -/
inductive Event where
  | issue (tx : Frame)
  | complete (r : Result)
  deriving DecidableEq, Repr

/-- What a Host call that uses no port of the block returns to the Host directly (R19, R70, R131; log 7). -/
inductive HostReturn where
  | opcode (b : Byte)
  | opened
  | openFailed (e : ErrCode)
  | closed
  deriving DecidableEq, Repr

/-- The outputs asserted at the latest event: each valid signal is a pulse of one event (R16, R18). -/
structure Outputs where
  /-- `tx_valid` with `tx_frame` (R16). -/
  tx : Option Frame := none
  /-- `res_valid` with `res_err`, `res_code`, `res_data` (R18). -/
  res : Option Result := none
  /-- The return of a Host call that uses no port of the block (log 7). -/
  ret : Option HostReturn := none
  deriving DecidableEq, Repr

/-- The device register space (R30) as known: pairs (256 * board + reg, byte), addresses strictly rising. A register
that is not listed has no known byte (log 8). -/
abbrev Memory := List Host.Cell

/-- An I/O error the double gives to the next transfer (D23), and whether a write so failed changed the device register
(U11, log 9). -/
structure InjectedFailure where
  code : Nat
  landed : Bool
  deriving DecidableEq, Repr

/-- The reference transport double's own state (95_test_vectors.md section 2, D23): its `topen` is `tstate` and its
`log` is `bus`. -/
structure Double where
  mem : Memory
  cross : Bool
  fail : Option InjectedFailure
  deriving DecidableEq, Repr

/-- The complete state (R23). -/
structure State where
  /-- The block's one bit of architectural state (R12). -/
  busy : Bool
  /-- The frame inside the Transport (R20). -/
  inflight : Option Frame
  /-- The Transport's lifecycle (R19). -/
  tstate : TState
  /-- The command port, as the Host drives it (R15). -/
  cmd : Option Command
  /-- The response port, as the Transport drives it (R17). -/
  rx : Option Answer
  /-- A call of OPCODE the Host has made and not yet got the value of (the model's own, log 7). -/
  codec : Option OpcodeCall
  /-- The outputs asserted at the latest event (R16, R18). -/
  out : Outputs
  /-- The trace, oldest event first (R89). -/
  trace : List Event
  /-- The frames that reached the serial bus, oldest first (R38 (a); the double's `log`). -/
  bus : List Frame
  /-- The device behind the Transport, where the model includes one (R23, D23). -/
  double : Option Double
  /-- What the environment will do, oldest first (the model's own, log 2). -/
  moves : List Move
  deriving DecidableEq, Repr

/-- Why the machine stops. -/
inductive Fault where
  /-- A command was issued after the Transport was closed: undefined in the source, "should fail loudly" (R38 (c),
  R141, R157, U1, D24). Raised by WRITE_REGISTER and READ_REGISTER. Safe: the run ends where hardware may go on. -/
  | useAfterClose
  deriving DecidableEq, Repr

/-- What the model does not speak of. -/
inductive Refusal where
  /-- No meaning yet for the instruction. Raised by no arm of this model. Safe. -/
  | notModelled (mnemonic : String)
  /-- The Host changed or withdrew the operands of a command that is held (R85, R155, U10). Raised by driving the
  command port, and by a transaction executed while busy. Safe. -/
  | operandsChangedWhileHeld
  /-- `close` after `close` (R157, U2, N14). Raised by the Host's call. Safe. -/
  | secondClose
  /-- `close` without `open` (R157, U2, N14). Raised by the Host's call. Safe. -/
  | closeWithoutOpen
  /-- `open` after `close` (R19, U2, N14). Raised by the Host's call. Safe. -/
  | openAfterClose
  /-- `open` while open: R19 gives `open` a meaning in NeverOpened only (log 11). Raised by the Host's call. Safe. -/
  | openWhileOpen
  /-- A reset as a step of a run (R152, D9): "a model that is asked about a mid-run reset refuses". Safe. -/
  | midRunReset
  deriving DecidableEq, Repr

/-- The machine right after reset (R22, R150): idle, no valid output, the Transport never opened and empty. The input
ports, the observation, the double and the schedule are the model's choices (log 4, 8, 16, 2). -/
def State.reset : State where
  busy := false
  inflight := none
  tstate := .neverOpened
  cmd := none
  rx := none
  codec := none
  out := {}
  trace := []
  bus := []
  double := none
  moves := []

end Sys2Proof.Machine
end

