-- ==== Sys2Proof/Machine/Flags.lean ====
section
/-! DEFINITION. The signals of the four ports (R15 to R18), read from the state. The block has no flag and no condition
code (R12): the handshake is all there is. A payload whose valid signal is 0, and `res_data` of an error, is `none`:
no rule reads one (R22, U8). -/

namespace Sys2Proof.Machine.State

variable (s : State)

/-! ### Command port (R15) -/

/-- `cmd_ready` = NOT `busy`. -/
def cmdReady : Bool := !s.busy
def cmdValid : Bool := s.cmd.isSome
def cmdDir : Option (BitVec 1) := s.cmd.map (·.dir.bit)
def cmdBoard : Option Nat := s.cmd.map (·.board)
def cmdReg : Option Byte := s.cmd.map (·.reg)
def cmdData : Option Byte := s.cmd.map (·.data)

/-! ### Transport request port (R16) -/

def txValid : Bool := s.out.tx.isSome
/-- `tx_frame`, 24 bits = `tx[0] ∥ tx[1] ∥ tx[2]`. -/
def txFrame : Option (BitVec 24) := s.out.tx.map Frame.toBits

/-! ### Transport response port (R17) -/

def rxValid : Bool := s.rx.isSome
def rxErr : Option Bool := s.rx.map fun | .ok _ => false | .err _ => true
def rxCode : Option ErrCode := s.rx.bind fun | .ok _ => none | .err e => some e
def rxFrame : Option (BitVec 24) := s.rx.bind fun | .ok f => some f.toBits | .err _ => none

/-! ### Result port (R18) -/

def resValid : Bool := s.out.res.isSome
def resErr : Option Bool := s.out.res.map fun | .ok _ => false | .err _ => true
def resCode : Option ErrCode := s.out.res.bind fun | .ok _ => none | .err e => some e
def resData : Option Byte := s.out.res.bind fun | .ok b => some b | .err _ => none

end Sys2Proof.Machine.State
end

