-- ==== Sys2Proof/Machine/Codec.lean ====
section
/-! DEFINITION. The pure functions OPCODE, FRAME and RESULT (R70 to R72) by their formulas, and the answer of a whole
transaction as one function of the command and the Transport's answer (R80, R81, R92). -/

namespace Sys2Proof.Machine

/-- OPCODE(board, dir) = 0x40 | ((board << 1) & 0x0E) | dir (R70). The shift is on an unbounded natural number, so no bit
of the index is lost before the mask (R74). -/
def opcode (board : Nat) (dir : Dir) : Byte :=
  0x40#8 ||| (BitVec.ofNat 8 (board <<< 1) &&& 0x0E#8) ||| dir.bit.setWidth 8

/-- FRAME(op, reg, data) = [op, reg, data]; nothing is checked (R71). -/
def frame (op reg data : Byte) : Frame := ⟨op, reg, data⟩

/-- RESULT(rx) = rx[2]; bytes 0 and 1 are ignored (R56, R72). -/
def result (rx : Frame) : Byte := rx.b2

/-- What the block delivers for an answer of the Transport: the third byte, or the same error (R83, R84). -/
def Answer.toResult : Answer → Result
  | .ok rx => .ok (result rx)
  | .err e => .err e

end Sys2Proof.Machine
end

