-- ==== Sys2Proof/Machine/Operands.lean ====
section
/-! DEFINITION. Operand assembly (R52 to R55): from the operands of a transaction to the request frame. A name of R64 is
exactly its number (Config), and every byte is a register address (R59). -/

namespace Sys2Proof.Machine

/-- The data field `d`: the data operand of a write, READ_FILL for a read whatever is on `cmd_data` (R55, D7). -/
def dataField : Dir → Byte → Byte
  | .write, data => data
  | .read, _ => Config.readFill

/-- The request frame of a command (R80, R81, R82): FRAME(OPCODE(board, dir), reg, if dir = Read then 0x00 else data). -/
def requestFrame (c : Command) : Frame := frame (opcode c.board c.dir) c.reg (dataField c.dir c.data)

/-- A whole transaction as a function of the command and the Transport's answer (R80, R81, R92): the frame issued and the
result delivered. -/
def transaction (c : Command) (a : Answer) : Frame × Result := (requestFrame c, a.toResult)

end Sys2Proof.Machine
end

