-- ==== Sys2Proof/Machine/Ops.lean ====
section
/-! DEFINITION. The shared operations: the device register space, the reference double, the Transport's contract, the
events ISSUE and COMPLETE, the hold, and the Host's calls. -/

namespace Sys2Proof.Machine

/-! ### The device register space (R30) -/

/-- The number of locations: 8 boards of 256 registers (R30). -/
def Memory.size : Nat := 2048

/-- The key of the location (board, reg) (R30). -/
def regAddr (board : BitVec 3) (reg : Byte) : Nat := 256 * board.toNat + reg.toNat

/-- The byte at a location, `none` where nothing is known of it (log 8). -/
def Memory.read : Memory → Nat → Option Byte
  | [], _ => none
  | (b, w) :: m, a => if a = b then some w else Memory.read m a

/-- Store a byte, keeping the addresses rising. -/
def Memory.write : Memory → Nat → Byte → Memory
  | [], a, v => [(a, v)]
  | (b, w) :: m, a, v =>
    if a < b then (a, v) :: (b, w) :: m
    else if a = b then (a, v) :: m
    else (b, w) :: Memory.write m a v

/-- The canonical form: addresses strictly rising and inside the address space. -/
abbrev Memory.wf (m : Memory) : Prop :=
  (m.map Prod.fst).Pairwise (· < ·) ∧ ∀ c ∈ m, c.1 < Memory.size

/-! ### The reference transport double (95_test_vectors.md section 2, D23) -/

/-- The device registers after a write frame has taken effect. -/
def Double.landWrite (mem : Memory) (tx : Frame) : Memory :=
  match unframe tx with
  | some ⟨a, .write, r, d⟩ => mem.write (regAddr a r) d
  | some ⟨_, .read, _, _⟩ => mem
  | none => mem

/-- The raw byte a read of a register gives: port-B is the inverse of port-A when cross-wired (S12). -/
def Double.readByte (d : Double) (a : BitVec 3) (r : Byte) : Option Byte :=
  if d.cross = true ∧ r = Config.portB then (d.mem.read (regAddr a Config.portA)).map (· ^^^ 0xFF#8)
  else d.mem.read (regAddr a r)

/-- `Transfer(tx)` of the double while open: the device after it, and the answer. There is no answer of the double's own
where the byte of the register read is not known: the environment then answers (U7, log 8). DESIGN CHOICE (log 30): who sets
`fail` and when is open; nothing in a run sets it, so at most the first transfer over a double fails, and one whose answer
the double knows never goes unanswered. -/
def Double.transfer (d : Double) (tx : Frame) : Double × Option Answer :=
  match d.fail with
  | some f =>
    ({ d with fail := none, mem := if f.landed then Double.landWrite d.mem tx else d.mem }, some (.err (.io f.code)))
  | none =>
    match unframe tx with
    | none => (d, some (.ok ⟨0x00#8, 0x00#8, 0x00#8⟩))
    | some ⟨_, .write, _, v⟩ => ({ d with mem := Double.landWrite d.mem tx }, some (.ok ⟨0x00#8, 0x00#8, v⟩))
    | some ⟨a, .read, r, _⟩ => (d, (d.readByte a r).map fun v => .ok ⟨0x00#8, 0x00#8, v⟩)

/-! ### The Transport's side of an issued frame (R38) -/

/-- The answer that is settled when the frame is issued: `InitError` before open (R38 (a), R131); the double's where
there is one; otherwise the environment's choice, still to come (R38 (b), R39). DESIGN CHOICE (log 27): no rule says how
long after ISSUE an answer is presented (D2); a settled one stands on the response port at once, so COMPLETE comes before
any entry of `moves`. -/
def settledAnswer (tx : Frame) (s : State) : Option Answer :=
  match s.tstate with
  | .neverOpened => some (.err .initError)
  | .opened => s.double.bind fun d => (d.transfer tx).2
  | .closed => none

/-- The frames on the bus after the frame is issued: an open Transport puts it there, one never opened does not
(R38 (a), R131, R153). -/
def busAfter (tx : Frame) (s : State) : List Frame :=
  match s.tstate with
  | .opened => s.bus ++ [tx]
  | .neverOpened => s.bus
  | .closed => s.bus

/-- The device after the frame is issued. -/
def doubleAfter (tx : Frame) (s : State) : Option Double :=
  match s.tstate with
  | .opened => s.double.map fun d => (d.transfer tx).1
  | .neverOpened => s.double
  | .closed => s.double

/-! ### The events of the block -/

/-- An event at which no output is asserted: every valid signal is a pulse (R16, R18). -/
def State.quiet (s : State) : State := { s with out := {} }

/-- The effect of ISSUE with the frame `tx` (R82): the frame is handed to the Transport, `busy` is set, the event is
recorded. A response that stands on the port at this event was asked for by no frame and is ignored (R86, log 13). -/
def State.issue (tx : Frame) (s : State) : State :=
  { s with
    busy := true
    inflight := some tx
    out := { tx := some tx }
    trace := s.trace ++ [.issue tx]
    rx := settledAnswer tx s
    bus := busAfter tx s
    double := doubleAfter tx s }

/-- The effect of COMPLETE (R83, R84, R137): the result is delivered, `busy` and `inflight` are cleared, the event is
recorded. This is also the block's whole error mechanism: nothing is saved and there is no handler (R137, R139). -/
def State.complete (a : Answer) (s : State) : State :=
  { s with
    busy := false
    inflight := none
    rx := none
    out := { res := some a.toResult }
    trace := s.trace ++ [.complete a.toResult] }

/-- A response while nothing is in flight: no state change, no result, nothing recorded (R86). -/
def State.ignoreResponse (s : State) : State := { s with rx := none, out := {} }

/-- The Host drives the command port (R15). While a command stands there unaccepted its operands must be kept stable
(R85, R155); a change is refused (U10). -/
def driveCommand (p : Option Command) (s : State) : Host.Outcome State Fault Refusal :=
  match s.cmd with
  | none => .next { s with cmd := p, out := {} }
  | some c => if p = some c then .next s.quiet else .refused .operandsChangedWhileHeld

/-- A transaction asked for by the command `c`: held on the command port while the block is busy (R85); otherwise ISSUE
(R82), which after close is a fault (R38 (c), U1). -/
def issueCommand (c : Command) (s : State) : Host.Outcome State Fault Refusal :=
  if s.busy then driveCommand (some c) s
  else if s.tstate = .closed then .fault .useAfterClose
  else .next (s.issue (requestFrame c))

/-- A call of the pure function OPCODE returns its value to the Host; no state of the block or of its environment is
read or written (R70). -/
def returnOpcode (board : Nat) (dir : Dir) (s : State) : Host.Outcome State Fault Refusal :=
  .next { s with out := { ret := some (.opcode (opcode board dir)) } }

/-! ### The Host's calls on the Transport (R19, R131, C13) -/

/-- `open()`: from NeverOpened to Open, or a failure told to the Host directly, after which it is still NeverOpened. -/
def hostOpen (r : OpenOutcome) (s : State) : Host.Outcome State Fault Refusal :=
  match s.tstate with
  | .neverOpened =>
    match r with
    | .succeeds => .next { s with tstate := .opened, out := { ret := some .opened } }
    | .nodeUnavailable => .next { s with out := { ret := some (.openFailed .initError) } }
    | .platformError n => .next { s with out := { ret := some (.openFailed (.io n)) } }
  | .opened => .refused .openWhileOpen
  | .closed => .refused .openAfterClose

/-- `close(handle)`: from Open to Closed. -/
def hostClose (s : State) : Host.Outcome State Fault Refusal :=
  match s.tstate with
  | .opened => .next { s with tstate := .closed, out := { ret := some .closed } }
  | .neverOpened => .refused .closeWithoutOpen
  | .closed => .refused .secondClose

/-- The answer an open Transport presents (R38 (b)): never `InitError` (C13, log 25). -/
def TransportChoice.toAnswer : TransportChoice → Answer
  | .ok rx => .ok rx
  | .ioError n => .err (.io n)

/-- One choice of the environment takes place. -/
def applyMove : Move → State → Host.Outcome State Fault Refusal
  | .drive p, s => driveCommand p s
  | .callOpcode q, s => .next { s with codec := some q, out := {} }
  | .openTransport r, s => hostOpen r s
  | .closeTransport, s => hostClose s
  | .answer a, s => .next { s with rx := some a.toAnswer, out := {} }
  | .reset, _ => .refused .midRunReset

/-! ### What happens at the next event -/

/-- The instruction the Host asks for at this event, if any, and the state with the request taken: a call of OPCODE,
which is combinational and waits for nothing (R70); otherwise the command on the port, when `cmd_ready = 1` (R15, R82). -/
def fetch (s : State) : Option (Instr × State) :=
  match s.codec with
  | some q => some (q.toInstr, { s with codec := none })
  | none =>
    match s.cmd with
    | some c => if s.cmdReady then some (c.toInstr, { s with cmd := none }) else none
    | none => none

/-- An event at which no instruction starts: a response on the port completes the transaction (R83, R84) or is ignored
(R86); otherwise the environment makes its next choice; otherwise nothing happens, which with `busy = 1` is the hang of
R88 and with `busy = 0` is waiting for a command (R146, log 12). -/
def otherEvent (s : State) : Host.Outcome State Fault Refusal :=
  match s.rx with
  | some a => .next (if s.busy then s.complete a else s.ignoreResponse)
  | none =>
    match s.moves with
    | [] => .next s.quiet
    | m :: ms => applyMove m { s with moves := ms }

end Sys2Proof.Machine
end

