-- ==== Sys2Proof/Machine/OpcodeByte.lean ====
section
/-! DEFINITION. The two halves of the opcode map taken alone (R57): the pure function OPCODE for each direction (R70). -/

namespace Sys2Proof.Machine

/-- OPCODE.W: OPCODE(board, Write) (R70). -/
def execOpcodeW (board : Nat) (s : State) : Host.Outcome State Fault Refusal := returnOpcode board .write s

/-- OPCODE.R: OPCODE(board, Read) (R70). -/
def execOpcodeR (board : Nat) (s : State) : Host.Outcome State Fault Refusal := returnOpcode board .read s

end Sys2Proof.Machine
end

