-- ==== Sys2Proof/Machine/RegisterAccess.lean ====
section
/-! DEFINITION. The two register transactions (R80, R81): their own event is ISSUE (R82), held while busy (R85). -/

namespace Sys2Proof.Machine

/-- WRITE_REGISTER(reg, data, board) (R81): issues [OPCODE(board, Write), reg, data]. -/
def execWriteRegister (board : Nat) (reg data : Byte) (s : State) : Host.Outcome State Fault Refusal :=
  issueCommand ⟨.write, board, reg, data⟩ s

/-- READ_REGISTER(reg, board) (R80): issues [OPCODE(board, Read), reg, 0x00]. -/
def execReadRegister (board : Nat) (reg : Byte) (s : State) : Host.Outcome State Fault Refusal :=
  issueCommand ⟨.read, board, reg, Config.readFill⟩ s

end Sys2Proof.Machine
end

