-- ==== Sys2Proof/Machine/Dispatch.lean ====
section
/-! DEFINITION. One arm per instruction. -/

namespace Sys2Proof.Machine

def exec (i : Instr) (s : State) : Host.Outcome State Fault Refusal :=
  match i with
  | .writeRegister board reg data => Sys2Proof.Machine.execWriteRegister board reg data s
  | .readRegister board reg => Sys2Proof.Machine.execReadRegister board reg s
  | .opcodeW board => Sys2Proof.Machine.execOpcodeW board s
  | .opcodeR board => Sys2Proof.Machine.execOpcodeR board s

end Sys2Proof.Machine
end

