-- ==== Sys2Proof/Machine/Step.lean ====
section
/-! DEFINITION. One event of the machine. There is no program counter (R11) and no instruction fetch (R44): the next
instruction is the one the Host asks for (`fetch`). -/

namespace Sys2Proof.Machine

/-- One event: the instruction the Host asks for, or, where none can start, the next event of another kind. -/
def step (s : State) : Host.Outcome State Fault Refusal :=
  match fetch s with
  | some (i, s') => exec i s'
  | none => otherEvent s

/-- The command whose frame or opcode byte a table word is stands where `step` takes its next instruction: on the command
port of an idle block for a transaction, as a pending call for an opcode byte (log 3). A word that is no instruction
leaves nothing to take. -/
def State.withFetchWord (s : State) (nbits w : Nat) : State :=
  match decodeTableWord nbits w with
  | some (.writeRegister b r d) => { s with codec := none, busy := false, inflight := none, cmd := some ⟨.write, b, r, d⟩ }
  | some (.readRegister b r) =>
    { s with codec := none, busy := false, inflight := none, cmd := some ⟨.read, b, r, Config.readFill⟩ }
  | some (.opcodeW b) => { s with codec := some ⟨b, .write⟩ }
  | some (.opcodeR b) => { s with codec := some ⟨b, .read⟩ }
  | none => { s with codec := none, cmd := none }

end Sys2Proof.Machine
end

