-- ==== Sys2Proof/Machine/HostPrograms.lean ====
section
/-! DEFINITION. The Host's side (42_host_composites.md): its routines as programs of whole transactions, and how a
sequential Host runs one over `step`. They are pseudo-instructions, not operations of the block (R65, R100); nothing here
is state of the machine. -/

namespace Sys2Proof.Machine

/-- The error a host routine ends in (R130): a transport error, passed on unmodified, or a kind of the host's own, which
never reaches the block (R133). -/
inductive HostError where
  | transport (e : ErrCode)
  | pinRange
  | ledRange
  | relayRange
  | switchRange
  | inputDevice
  deriving DecidableEq, Repr

/-- A host routine (R89): it ends, performs a transaction and goes on with the byte, or calls open or close. A
transaction that returns an error ends it at once with that error (R116). -/
inductive HostProg (α : Type) where
  | ret (r : Except HostError α)
  | transact (c : Command) (next : Byte → HostProg α)
  | openTransport (next : HostProg α)
  | closeTransport (next : HostProg α)

/-- Go on with the value of a routine; an error ends the whole. -/
def HostProg.andThen {α β : Type} : HostProg α → (α → HostProg β) → HostProg β
  | .ret (.ok v), f => f v
  | .ret (.error e), _ => .ret (.error e)
  | .transact c k, f => .transact c fun b => (k b).andThen f
  | .openTransport k, f => .openTransport (k.andThen f)
  | .closeTransport k, f => .closeTransport (k.andThen f)

/-! ### The two transactions in the syntax of R63, with the default board 0 (R117) -/

def readRegister (reg : Byte) (board : Nat := 0) : HostProg Byte :=
  .transact ⟨.read, board, reg, Config.readFill⟩ fun b => .ret (.ok b)

def writeRegister (reg data : Byte) (board : Nat := 0) : HostProg Byte :=
  .transact ⟨.write, board, reg, data⟩ fun b => .ret (.ok b)

/-! ### Mask helpers -/

/-- pin_bit_mask (R101). -/
def pinBitMask (pin : Int) : Except HostError Byte :=
  if pin < 0 ∨ 7 < pin then .error .pinRange else .ok (1#8 <<< pin.toNat)

/-- pin_number_from_mask (R102): the lowest set bit of bits 0 to 7; 0 where none of them is set, the documented quirk
(U3). -/
def pinNumberFromMask (mask : Nat) : Nat := ((List.range 8).find? mask.testBit).getD 0

/-! ### Whole-port routines -/

/-- read_output (R103). -/
def readOutput (board : Nat := 0) : HostProg Byte := readRegister Config.portA board

/-- write_output (R104). -/
def writeOutput (data : Byte) (board : Nat := 0) : HostProg Byte := writeRegister Config.portA data board

/-- read_input (R105): the raw byte inverted, since the input lines are active low (R163). -/
def readInput (board : Nat := 0) : HostProg Byte :=
  (readRegister Config.portB board).andThen fun raw => .ret (.ok (raw ^^^ 0xFF#8))

/-- read_pullup (R106). -/
def readPullup (board : Nat := 0) : HostProg Byte := readRegister Config.pullupB board

/-- write_pullup (R107). -/
def writePullup (data : Byte) (board : Nat := 0) : HostProg Byte := writeRegister Config.pullupB data board

/-! ### Single-pin routines -/

/-- The byte to write back (R108): the pin's bit set or cleared, the other bits as read. -/
def updatedByte (value : Int) (old m : Byte) : Byte := if value ≠ 0 then old ||| m else old &&& (m ^^^ 0xFF#8)

/-- The bit under the mask, as 0 or 1 (R109). -/
def maskedBit (v m : Byte) : Nat := if v &&& m ≠ 0#8 then 1 else 0

/-- The mask first, so that a range error issues no frame (R116, D19). -/
def withMask {α : Type} (pin : Int) (f : Byte → HostProg α) : HostProg α :=
  match pinBitMask pin with
  | .ok m => f m
  | .error e => .ret (.error e)

/-- digital_write (R108): a read, then a write. DESIGN CHOICE (log 28): the rule names no value returned on success; the
model returns the byte of the write transaction. -/
def digitalWrite (pin value : Int) (board : Nat := 0) : HostProg Byte :=
  withMask pin fun m => (readOutput board).andThen fun old => writeOutput (updatedByte value old m) board

/-- digital_read (R109). -/
def digitalRead (pin : Int) (board : Nat := 0) : HostProg Nat :=
  withMask pin fun m => (readInput board).andThen fun v => .ret (.ok (maskedBit v m))

/-- digital_write_pullup (R110). DESIGN CHOICE (log 28): on success it returns the byte of the write transaction, which the
rule leaves open. -/
def digitalWritePullup (pin value : Int) (board : Nat := 0) : HostProg Byte :=
  withMask pin fun m => (readPullup board).andThen fun old => writePullup (updatedByte value old m) board

/-- digital_read_pullup (R111): no inversion. -/
def digitalReadPullup (pin : Int) (board : Nat := 0) : HostProg Nat :=
  withMask pin fun m => (readPullup board).andThen fun v => .ret (.ok (maskedBit v m))

/-! ### Bring-up and teardown -/

/-- Transactions one after the other, their bytes not used. -/
def inOrder : List Command → HostProg Unit
  | [] => .ret (.ok ())
  | c :: cs => .transact c fun _ => inOrder cs

/-- A write command. -/
def writeCommand (reg data : Byte) (board : Nat) : Command := ⟨.write, board, reg, data⟩

/-- The five writes of one board (R112, D20): config, output data, output direction, input direction, input pull-up. -/
def bringUpBoard (v : Config.BringUpValues) (board : Nat) : List Command :=
  [writeCommand Config.config v.haenValue board, writeCommand Config.portA 0x00#8 board,
   writeCommand Config.dirA v.allOutputs board, writeCommand Config.dirB v.allInputs board,
   writeCommand Config.pullupB v.allPullups board]

/-- All the writes of the bring-up (R112): the boards 0 to 7, then the final pass over them (C7, D20). -/
def bringUpCommands (v : Config.BringUpValues) : List Command :=
  (List.range Config.nBoards).flatMap (bringUpBoard v) ++
    (List.range Config.nBoards).map (writeCommand Config.portA 0x00#8)

/-- init (R112, R113). -/
def init (initPorts : Bool := true) (v : Config.BringUpValues := Config.bringUpValues) : HostProg Unit :=
  .openTransport (if initPorts then inOrder (bringUpCommands v) else .ret (.ok ()))

/-- deinit (R114). -/
def deinit : HostProg Unit := .closeTransport (.ret (.ok ()))

/-! ### Running a routine over `step` -/

/-- How far a Host came with a call. -/
inductive HostRun (α : Type) where
  /-- It returned. -/
  | done (r : Except HostError α) (s : State)
  /-- It is still waiting: no answer has come (R88). -/
  | waiting (s : State)
  | fault (f : Fault)
  | refused (r : Refusal)

/-- Step until a result stands on the result port, at most `n` times: the Host is blocked on the operation (R18). -/
def awaitResult : Nat → State → HostRun Byte
  | 0, s => .waiting s
  | n + 1, s =>
    match step s with
    | .next s' =>
      match s'.out.res with
      | some (.ok b) => .done (.ok b) s'
      | some (.err e) => .done (.error (.transport e)) s'
      | none => awaitResult n s'
    | .fault f => .fault f
    | .refused r => .refused r

/-- One whole transaction of a sequential Host: it drives the command port and waits for the result, through every
choice the environment has left (each takes at most two events, and drive, ISSUE and COMPLETE one each). -/
def hostTransact (c : Command) (s : State) : HostRun Byte :=
  awaitResult (2 * s.moves.length + 4) { s with moves := .drive (some c) :: s.moves }

/-- The error of a failed open (R131, C13). -/
def openError : Option HostReturn → Except HostError Unit
  | some (.openFailed e) => .error (.transport e)
  | some (.opcode _) => .ok ()
  | some .opened => .ok ()
  | some .closed => .ok ()
  | none => .ok ()

/-- A sequential Host runs a routine; `r` says how `open()` ends. -/
def HostProg.run {α : Type} (r : OpenOutcome) : HostProg α → State → HostRun α
  | .ret v, s => .done v s
  | .transact c k, s =>
    match hostTransact c s with
    | .done (.ok b) s' => (k b).run r s'
    | .done (.error e) s' => .done (.error e) s'
    | .waiting s' => .waiting s'
    | .fault f => .fault f
    | .refused q => .refused q
  | .openTransport k, s =>
    match step { s with moves := .openTransport r :: s.moves } with
    | .next s' =>
      match openError s'.out.ret with
      | .ok () => k.run r s'
      | .error e => .done (.error e) s'
    | .fault f => .fault f
    | .refused q => .refused q
  | .closeTransport k, s =>
    match step { s with moves := .closeTransport :: s.moves } with
    | .next s' => k.run r s'
    | .fault f => .fault f
    | .refused q => .refused q

/-- The routine calls neither open nor close: it only performs transactions. -/
def HostProg.onlyTransacts {α : Type} : HostProg α → Prop
  | .ret _ => True
  | .transact _ k => ∀ b, (k b).onlyTransacts
  | .openTransport _ => False
  | .closeTransport _ => False

/-- What a routine of transactions does, told without the machine: by whole transactions (R80, R81) over the answers an
open Transport gives in turn. The events, then what it returns (nothing where the answers run out: R88), then the
answers left. -/
def HostProg.script {α : Type} : HostProg α → List TransportChoice →
    List Event × Option (Except HostError α) × List TransportChoice
  | .ret v, l => ([], some v, l)
  | .transact c _, [] => ([.issue (requestFrame c)], none, [])
  | .transact c k, a :: l =>
    match transaction c a.toAnswer with
    | (tx, .ok b) =>
      let rest := (k b).script l
      (.issue tx :: .complete (.ok b) :: rest.1, rest.2)
    | (tx, .err e) => ([.issue tx, .complete (.err e)], some (.error (.transport e)), l)
  | .openTransport k, l => k.script l
  | .closeTransport k, l => k.script l

/-- One transaction of a routine, and what is left of it: the unit that several hosts interleave (R43, R156). -/
def HostProg.advance {α : Type} (p : HostProg α) (s : State) : HostRun (HostProg α) :=
  match p with
  | .transact c k =>
    match hostTransact c s with
    | .done (.ok b) s' => .done (.ok (k b)) s'
    | .done (.error e) s' => .done (.ok (.ret (.error e))) s'
    | .waiting s' => .waiting s'
    | .fault f => .fault f
    | .refused q => .refused q
  | p => .done (.ok p) s

/-- Two host agents share the block (D26): the list says whose next transaction takes place, `true` the first agent's.
Nothing serialises their sequences (R42, R156). -/
def interleave {α β : Type} : List Bool → HostProg α → HostProg β → State → HostRun (HostProg α × HostProg β)
  | [], p, q, s => .done (.ok (p, q)) s
  | true :: l, p, q, s =>
    match p.advance s with
    | .done (.ok p') s' => interleave l p' q s'
    | .done (.error e) s' => .done (.error e) s'
    | .waiting s' => .waiting s'
    | .fault f => .fault f
    | .refused x => .refused x
  | false :: l, p, q, s =>
    match q.advance s with
    | .done (.ok q') s' => interleave l p q' s'
    | .done (.error e) s' => .done (.error e) s'
    | .waiting s' => .waiting s'
    | .fault f => .fault f
    | .refused x => .refused x

/-! ### View objects: their contract (R115) -/

/-- A view object holds "(pin number, board index)" (R115). -/
structure View where
  kind : Config.ViewKind
  pin : Nat
  board : Nat
  deriving DecidableEq, Repr

/-- The largest index of a kind (R115): LED 0 to 7, Relay 0 to 1, Switch 0 to 3. -/
def viewMax : Config.ViewKind → Int
  | .led => 7
  | .relay => 1
  | .switch => 3

/-- The error of an index out of range (R115, R130). -/
def viewRangeError : Config.ViewKind → HostError
  | .led => .ledRange
  | .relay => .relayRange
  | .switch => .switchRange

/-- Construction checks the index (R115); the pin it stands for is not stated (N17, log 20). DESIGN CHOICE (log 29): a view
built without a board, as in `LED(7)`, is of board 0; the spec states no default for views. -/
def mkView (kind : Config.ViewKind) (index : Int) (board : Nat := 0) : Except HostError View :=
  if index < 0 ∨ viewMax kind < index then .error (viewRangeError kind)
  else .ok ⟨kind, Config.viewPin kind index.toNat, board⟩

/-- Setting a value: an LED or a Relay delegates to digital_write; a Switch refuses without a transaction (R115, C5). What
the setter returns on success is that of digital_write (log 28). -/
def View.setValue (v : View) (value : Int) : HostProg Byte :=
  match v.kind with
  | .led => digitalWrite v.pin value v.board
  | .relay => digitalWrite v.pin value v.board
  | .switch => .ret (.error .inputDevice)

/-- Reading a Switch delegates to digital_read; the source gives an LED or a Relay no read (R115, log 20). -/
def View.getValue (v : View) : Option (HostProg Nat) :=
  match v.kind with
  | .switch => some (digitalRead v.pin v.board)
  | .led => none
  | .relay => none

end Sys2Proof.Machine
end

