-- ==== Sys2Proof/Safety.lean ====
section
/-! DEFINITION. What claims speak of: the trace's alternation, the end of a run, the hang, the invariant of the machine,
and what an instruction leaves alone. -/

namespace Sys2Proof.Machine

/-- `k` events of the machine, stopping at the first fault or refusal: the host's `core.run`, on the model's own types. -/
def runSteps : Nat → State → Host.Outcome State Fault Refusal
  | 0, s => .next s
  | k + 1, s =>
    match step s with
    | .next t => runSteps k t
    | .fault f => .fault f
    | .refused r => .refused r

/-- The frame a trace leaves unanswered, read from the front with `p` pending; `none` where the events do not alternate
Issue, Complete, Issue, … (R89). -/
def pendingAfter : Option Frame → List Event → Option (Option Frame)
  | p, [] => some p
  | none, .issue tx :: t => pendingAfter (some tx) t
  | some _, .complete _ :: t => pendingAfter none t
  | none, .complete _ :: _ => none
  | some _, .issue _ :: _ => none

/-- A frame the block can produce (R58): byte 0 carries the header, and a read carries READ_FILL. -/
def Producible (tx : Frame) : Prop :=
  ∃ u, unframe tx = some u ∧ (u.w = .read → u.d = Config.readFill)

/-- The invariant of the machine. -/
structure Inv (s : State) : Prop where
  /-- `inflight` is `some` exactly when `busy = 1` (R20). -/
  busy_iff : s.busy = s.inflight.isSome
  /-- The trace alternates, and what it leaves unanswered is the frame in flight (R20, R89). -/
  alternates : pendingAfter none s.trace = some s.inflight
  /-- Every frame ever issued is one the block can produce (R58). -/
  produced : ∀ tx, Event.issue tx ∈ s.trace → Producible tx
  /-- What reached the bus was issued (R87). -/
  bus_issued : ∀ tx, tx ∈ s.bus → Event.issue tx ∈ s.trace
  /-- Until the Transport has been opened nothing reaches the bus (R131, R153). -/
  bus_silent : s.tstate = .neverOpened → s.bus = []
  /-- Until then every frame in flight has its answer, `InitError` (R38 (a), R131). -/
  unopened_answer : s.tstate = .neverOpened → s.busy = true → s.rx = some (.err .initError)
  /-- The device registers keep their canonical form. -/
  mem_wf : ∀ d, s.double = some d → d.mem.wf

/-- The choice is that the Host presents a command. -/
def Move.isCommand : Move → Bool
  | .drive (some _) => true
  | .drive none => false
  | .callOpcode _ => false
  | .openTransport _ => false
  | .closeTransport => false
  | .answer _ => false
  | .reset => false

/-- The choice is that the Transport answers. -/
def Move.isAnswer : Move → Bool
  | .answer _ => true
  | .drive _ => false
  | .callOpcode _ => false
  | .openTransport _ => false
  | .closeTransport => false
  | .reset => false

/-- A run is over (R89): every command has been accepted and has delivered its result, `busy = 0`, `inflight = none`. -/
abbrev Final (s : State) : Prop :=
  s.busy = false ∧ s.inflight = none ∧ s.cmd = none ∧ ∀ m ∈ s.moves, m.isCommand = false

/-- The Transport never answers the frame in flight (R88): no response stands on the port and none is to come. -/
abbrev Unanswered (s : State) : Prop :=
  s.busy = true ∧ s.rx = none ∧ ∀ m ∈ s.moves, m.isAnswer = false

/-- The block is idle and no input stands on a port: where a sequential Host presents a command. -/
abbrev Idle (s : State) : Prop := s.busy = false ∧ s.cmd = none ∧ s.rx = none ∧ s.codec = none

end Sys2Proof.Machine
end

