-- ==== Sys2Proof/Certificates/Slice0/Obligations.lean ====
section
/-! DEFINITION. The statements for the provers. -/

open Sys2Proof Sys2Proof.Machine

/-! ### Codec -/

/-- R70: the value of OPCODE for every board index of every width and both directions, its bit fields, its range, the
aliasing of index b + 8, and that the sixteen values for 0 to 7 are distinct. -/
def Obligations.OpcodeByteValue : Prop :=
  (∀ (board : Nat) (dir : Dir),
    (opcode board dir).toNat = 64 + 2 * (board % 8) + dir.bit.toNat ∧
    (opcode board dir).extractLsb' 4 4 = 0x4#4 ∧
    (opcode board dir).extractLsb' 1 3 = BitVec.ofNat 3 board ∧
    (opcode board dir).extractLsb' 0 1 = dir.bit ∧
    opcode (board + 8) dir = opcode board dir ∧
    0x40#8 ≤ opcode board dir ∧ opcode board dir ≤ 0x4F#8) ∧
  (∀ (b b' : Nat) (d d' : Dir), b < 8 → b' < 8 → opcode b d = opcode b' d' → b = b' ∧ d = d')

/-- R51: the layout of the opcode byte (header, board address, direction) has the value of the formula. -/
def Obligations.OpcodeLayoutAgreesWithFormula : Prop :=
  ∀ (board : Nat) (dir : Dir),
    encodeOpcode board dir = opcode board dir ∧
    encodeOpcode board dir = 0x4#4 ++ BitVec.ofNat 3 board ++ dir.bit

/-- R71 and R72: FRAME places its three bytes unaltered, whatever the first one is, and RESULT is the third byte whatever
the other two are. -/
def Obligations.FrameAndResultBytes : Prop :=
  (∀ op reg data : Byte, (frame op reg data).b0 = op ∧ (frame op reg data).b1 = reg ∧ (frame op reg data).b2 = data ∧
    (frame op reg data).toBits = op ++ reg ++ data) ∧
  (∀ rx : Frame, result rx = rx.toBits.extractLsb' 0 8) ∧
  (∀ x y x' y' z : Byte, result ⟨x, y, z⟩ = z ∧ result ⟨x', y', z⟩ = result ⟨x, y, z⟩)

/-- R73: UNFRAME is total, reports exactly the frames whose header is not `0100`, gives the fields where they stand, and
is the inverse of FRAME over OPCODE in both directions (the board modulo 8). -/
def Obligations.UnframeInvertsFrame : Prop :=
  (∀ f : Frame, unframe f = none ↔ f.b0.extractLsb' 4 4 ≠ 0x4#4) ∧
  (∀ (f : Frame) (u : ReqFields), unframe f = some u →
    u.a = f.b0.extractLsb' 1 3 ∧ u.w.bit = f.b0.extractLsb' 0 1 ∧ u.r = f.b1 ∧ u.d = f.b2 ∧
    frame (opcode u.a.toNat u.w) u.r u.d = f) ∧
  (∀ (board : Nat) (dir : Dir) (reg data : Byte), ∃ u,
    unframe (frame (opcode board dir) reg data) = some u ∧
    u.a.toNat = board % 8 ∧ u.w = dir ∧ u.r = reg ∧ u.d = data)

/-! ### Encoding -/

/-- Decoding the bytes of a well-formed instruction gives it back, with every operand at every value the encoding
admits. -/
def Obligations.DecodeEncodeRoundTrip : Prop :=
  ∀ i : Instr, i.wellFormed = true → decode (encode i) = .ok i

/-- Bytes that decode are the bytes of the instruction they decode to, and it is well formed: each instruction has one
encoding and no bit of the bytes is dropped. -/
def Obligations.DecodedBytesAreTheEncoding : Prop :=
  ∀ (bs : List Byte) (i : Instr), decode bs = .ok i → i.wellFormed = true ∧ encode i = bs

/-- R57: the match and mask of the four rows say exactly which words are their instructions, and the opcode byte takes
exactly the values 0x40 + 2 * a + w. -/
def Obligations.OpcodeTableMasks : Prop :=
  (∀ v : BitVec 24, (∃ b r d, decodeTableWord 24 v.toNat = some (.writeRegister b r d)) ↔
    v &&& 0xF10000#24 = 0x400000#24) ∧
  (∀ v : BitVec 24, (∃ b r, decodeTableWord 24 v.toNat = some (.readRegister b r)) ↔
    v &&& 0xF100FF#24 = 0x410000#24) ∧
  (∀ v : BitVec 24, (∃ u, unframe (Frame.ofBits v) = some u ∧ u.w = .read) ↔ v &&& 0xF10000#24 = 0x410000#24) ∧
  (∀ v : BitVec 8, (∃ b, decodeTableWord 8 v.toNat = some (.opcodeW b)) ↔ v &&& 0xF1#8 = 0x40#8) ∧
  (∀ v : BitVec 8, (∃ b, decodeTableWord 8 v.toNat = some (.opcodeR b)) ↔ v &&& 0xF1#8 = 0x41#8) ∧
  (∀ v : BitVec 8, (opcodeFields v).isSome = true ↔ ∃ a w : Nat, a < 8 ∧ w < 2 ∧ v.toNat = 0x40 + 2 * a + w)

/-- Words written out from the spec's encodings decode to the instructions they stand for, and words of no row to
nothing (30_encoding.md R57, 95_test_vectors.md 3.4). -/
def Obligations.WrittenOutWordsDecode : Prop :=
  decodeTableWord 24 0b010001100001001010101010 = some (.writeRegister 3 0x12#8 0xAA#8) ∧
  decodeTableWord 24 0b010011110000110100000000 = some (.readRegister 7 0x0D#8) ∧
  decodeTableWord 8 0b01001000 = some (.opcodeW 4) ∧
  decodeTableWord 8 0b01000011 = some (.opcodeR 1) ∧
  decodeTableWord 24 0b010100000001001010101010 = none ∧
  decodeTableWord 24 0b010010110001001101110111 = none

/-! ### The step runs the instruction that is asked for -/

/-- Where a table word decodes, the step after it is placed is `exec` of the instruction, on the state with the request
taken and, for a transaction, the block idle. -/
def Obligations.StepRunsTheTableWord : Prop :=
  ∀ (s : State) (nbits w : Nat) (i : Instr), decodeTableWord nbits w = some i →
    step (s.withFetchWord nbits w) =
      match i with
      | .writeRegister b r d =>
        exec (.writeRegister b r d) { s with codec := none, busy := false, inflight := none, cmd := none }
      | .readRegister b r =>
        exec (.readRegister b r) { s with codec := none, busy := false, inflight := none, cmd := none }
      | .opcodeW b => exec (.opcodeW b) { s with codec := none }
      | .opcodeR b => exec (.opcodeR b) { s with codec := none }

/-- The step of an idle block with a command on its port is `exec` of that command, and a pending call of OPCODE is run at
once, busy or not; both are the instruction that the bytes of their encoding decode to, for every operand the port can
carry. -/
def Obligations.StepRunsTheRequest : Prop :=
  (∀ (s : State) (c : Command), s.codec = none → s.busy = false → s.cmd = some c →
    step s = exec (match c.dir with
      | .write => .writeRegister c.board c.reg c.data
      | .read => .readRegister c.board c.reg) { s with cmd := none }) ∧
  (∀ (s : State) (q : OpcodeCall), s.codec = some q →
    step s = exec (match q.dir with
      | .write => .opcodeW q.board
      | .read => .opcodeR q.board) { s with codec := none }) ∧
  (∀ c : Command, c.onPort = true → decode (encode c.toInstr) = .ok (match c.dir with
      | .write => .writeRegister c.board c.reg c.data
      | .read => .readRegister c.board c.reg)) ∧
  (∀ q : OpcodeCall, q.onPort = true → decode (encode q.toInstr) = .ok (match q.dir with
      | .write => .opcodeW q.board
      | .read => .opcodeR q.board))

/-! ### ISSUE -/

/-- WRITE_REGISTER and READ_REGISTER complete their own event, ISSUE, on an idle block with an open Transport and no
device model: the frame of R82 is issued and reaches the bus, `busy` is set, nothing else changes. That the bus has the
frame at this very event is the model's choice (log 16). -/
def Obligations.TransactionIssuesWhenOpen : Prop :=
  ∀ (s : State) (b : Nat) (r d : Byte), s.busy = false → s.tstate = .opened → s.double = none →
    exec (.writeRegister b r d) s = .next { s with
      busy := true, inflight := some ⟨opcode b .write, r, d⟩
      out := { tx := some ⟨opcode b .write, r, d⟩ }
      trace := s.trace ++ [.issue ⟨opcode b .write, r, d⟩]
      rx := none, bus := s.bus ++ [⟨opcode b .write, r, d⟩] } ∧
    exec (.readRegister b r) s = .next { s with
      busy := true, inflight := some ⟨opcode b .read, r, 0x00#8⟩
      out := { tx := some ⟨opcode b .read, r, 0x00#8⟩ }
      trace := s.trace ++ [.issue ⟨opcode b .read, r, 0x00#8⟩]
      rx := none, bus := s.bus ++ [⟨opcode b .read, r, 0x00#8⟩] }

/-- Before open the same two instructions issue the same frames, the answer `InitError` is settled and nothing reaches
the bus, whatever device stands behind it. That the answer stands on the response port at this very event is the model's
choice (log 27). -/
def Obligations.TransactionIssuesBeforeOpen : Prop :=
  ∀ (s : State) (b : Nat) (r d : Byte), s.busy = false → s.tstate = .neverOpened →
    exec (.writeRegister b r d) s = .next { s with
      busy := true, inflight := some ⟨opcode b .write, r, d⟩
      out := { tx := some ⟨opcode b .write, r, d⟩ }
      trace := s.trace ++ [.issue ⟨opcode b .write, r, d⟩]
      rx := some (.err .initError) } ∧
    exec (.readRegister b r) s = .next { s with
      busy := true, inflight := some ⟨opcode b .read, r, 0x00#8⟩
      out := { tx := some ⟨opcode b .read, r, 0x00#8⟩ }
      trace := s.trace ++ [.issue ⟨opcode b .read, r, 0x00#8⟩]
      rx := some (.err .initError) }

/-- R82: at ISSUE the command is accepted, its frame is asserted with `tx_valid`, `busy` is set, the frame is in flight,
the event is recorded, and nothing else of the command is kept: two commands with one frame leave the same state. -/
def Obligations.IssueEffect : Prop :=
  (∀ (s : State) (c : Command), s.codec = none → s.busy = false → s.cmd = some c → s.tstate ≠ .closed →
    ∃ t, step s = .next t ∧
      t.out = { tx := some (frame (opcode c.board c.dir) c.reg (if c.dir = .read then 0x00#8 else c.data)) } ∧
      t.inflight = t.out.tx ∧ t.busy = true ∧ t.cmd = none ∧
      t.trace = s.trace ++ [.issue (frame (opcode c.board c.dir) c.reg (if c.dir = .read then 0x00#8 else c.data))] ∧
      t.tstate = s.tstate ∧ t.codec = none ∧ t.moves = s.moves) ∧
  (∀ (s : State) (c c' : Command), s.codec = none → s.busy = false → s.tstate ≠ .closed →
    frame (opcode c.board c.dir) c.reg (if c.dir = .read then 0x00#8 else c.data) =
      frame (opcode c'.board c'.dir) c'.reg (if c'.dir = .read then 0x00#8 else c'.data) →
    step { s with cmd := some c } = step { s with cmd := some c' })

/-- R55: a write copies the data operand into byte 2; a read puts 0x00 there whatever is on `cmd_data`. -/
def Obligations.DataFieldOfTheFrame : Prop :=
  (∀ (b : Nat) (r d : Byte), (requestFrame ⟨.write, b, r, d⟩).b2 = d ∧ (requestFrame ⟨.read, b, r, d⟩).b2 = 0x00#8) ∧
  (∀ (s : State) (b : Nat) (r d d' : Byte), s.codec = none → s.busy = false →
    step { s with cmd := some ⟨.read, b, r, d⟩ } = step { s with cmd := some ⟨.read, b, r, d'⟩ })

/-- R58 (the block's side): every frame the machine ever issues is that of a command, so byte 0 lies in 0x40 to 0x4F and
a read frame's byte 2 is 0x00. -/
def Obligations.IssuedFramesAreProducible : Prop :=
  ∀ (s t : State) (tx : Frame), step s = .next t → t.out.tx = some tx →
    Producible tx ∧ 0x40#8 ≤ tx.b0 ∧ tx.b0 ≤ 0x4F#8

/-- The board index reaches the machine only modulo 8 (R32, R60, R162): index b + 8k behaves as b, for every
instruction. -/
def Obligations.BoardIndexAliases : Prop :=
  ∀ (s : State) (b k : Nat) (r d : Byte),
    (s.busy = false → exec (.writeRegister (b + 8 * k) r d) s = exec (.writeRegister b r d) s) ∧
    (s.busy = false → exec (.readRegister (b + 8 * k) r) s = exec (.readRegister b r) s) ∧
    exec (.opcodeW (b + 8 * k)) s = exec (.opcodeW b) s ∧
    exec (.opcodeR (b + 8 * k)) s = exec (.opcodeR b) s

/-- OPCODE.W and OPCODE.R complete in every state, busy or not, opened or not: they return the byte of R70 and change
nothing else (that the value is an output of its own, `out.ret`, is the model's choice, log 7). -/
def Obligations.OpcodeCallReturnsTheByte : Prop :=
  ∀ (s : State) (b : Nat),
    exec (.opcodeW b) s = .next { s with out := { ret := some (.opcode (opcode b .write)) } } ∧
    exec (.opcodeR b) s = .next { s with out := { ret := some (.opcode (opcode b .read)) } } ∧
    (opcode b .write).toNat = 64 + 2 * (b % 8) ∧ (opcode b .read).toNat = 65 + 2 * (b % 8)

/-! ### COMPLETE -/

/-- R83 and R84: while busy, a response on the port is delivered at the next event, the third byte of Ok, the same error
of Err; `busy` and `inflight` are cleared, the event is recorded, nothing else changes. -/
def Obligations.CompleteDeliversTheAnswer : Prop :=
  (∀ (s : State) (rx : Frame), s.codec = none → s.busy = true → s.rx = some (.ok rx) →
    step s = .next { s with
      busy := false, inflight := none, rx := none
      out := { res := some (.ok rx.b2) }
      trace := s.trace ++ [.complete (.ok rx.b2)] }) ∧
  (∀ (s : State) (e : ErrCode), s.codec = none → s.busy = true → s.rx = some (.err e) →
    step s = .next { s with
      busy := false, inflight := none, rx := none
      out := { res := some (.err e) }
      trace := s.trace ++ [.complete (.err e)] })

/-- R92: for every command and every answer, ISSUE then COMPLETE gives the frame and the result of the whole
transaction. -/
def Obligations.IssueThenCompleteIsTransaction : Prop :=
  ∀ (s : State) (c : Command), s.codec = none → s.busy = false → s.cmd = some c → s.tstate ≠ .closed →
    ∃ t, step s = .next t ∧ t.out.tx = some (transaction c (.err .initError)).1 ∧
      ∀ a : Answer, ∃ u, step { t with rx := some a } = .next u ∧ t.out.tx = some (transaction c a).1 ∧
        u.out.res = some (transaction c a).2 ∧ u.busy = false ∧
        u.trace = s.trace ++ [.issue (transaction c a).1, .complete (transaction c a).2] ∧
        (transaction c a).1 =
          frame (opcode c.board c.dir) c.reg (match c.dir with | .read => 0x00#8 | .write => c.data) ∧
        (transaction c a).2 = (match a with | .ok rx => .ok rx.b2 | .err e => .err e)

/-- A whole transaction over an open Transport that answers next: three events, one frame on the bus, the result of the
answer, the block idle again; no other effect. It holds for every response frame and every I/O error. -/
def Obligations.WholeTransactionOverOpenTransport : Prop :=
  ∀ (s : State) (c : Command) (a : TransportChoice) (ms : List Move),
    s.codec = none → s.busy = false → s.cmd = some c → s.tstate = .opened → s.double = none →
    s.moves = .answer a :: ms →
    runSteps 3 s = .next { s with
      cmd := none, inflight := none, rx := none
      out := { res := some (match a with | .ok rx => .ok rx.b2 | .ioError n => .err (.io n)) }
      trace := s.trace ++ [.issue (requestFrame c),
        .complete (match a with | .ok rx => .ok rx.b2 | .ioError n => .err (.io n))]
      bus := s.bus ++ [requestFrame c]
      moves := ms }

/-- R131: before open both transactions are answered `Err(InitError)` with no bus activity, and a failed `open` tells the
Host `InitError` for a missing node, the platform's error otherwise, and leaves the Transport never opened. That the answer
comes at the second event, before any move of the Host, is the model's choice (log 27). -/
def Obligations.InitErrorBeforeOpen : Prop :=
  (∀ (s : State) (c : Command), s.codec = none → s.busy = false → s.cmd = some c → s.tstate = .neverOpened →
    ∃ t, runSteps 2 s = .next t ∧ t.out.res = some (.err .initError) ∧ t.bus = s.bus ∧ t.double = s.double ∧
      t.tstate = .neverOpened ∧ t.busy = false ∧
      t.trace = s.trace ++ [.issue (requestFrame c), .complete (.err .initError)]) ∧
  (∀ (s : State) (ms : List Move), Idle s → s.tstate = .neverOpened →
    step { s with moves := .openTransport .nodeUnavailable :: ms } =
      .next { s with moves := ms, out := { ret := some (.openFailed .initError) } } ∧
    ∀ n, step { s with moves := .openTransport (.platformError n) :: ms } =
      .next { s with moves := ms, out := { ret := some (.openFailed (.io n)) } })

/-- R86: a response while nothing is in flight changes no state but leaves the port, delivers nothing and is not
recorded; with a command on the port it is as if it had not come. -/
def Obligations.SpuriousResponseIgnored : Prop :=
  (∀ (s : State) (a : Answer), s.codec = none → s.busy = false → s.cmd = none → s.rx = some a →
    step s = .next { s with rx := none, out := {} }) ∧
  (∀ (s : State) (a : Answer) (c : Command), s.codec = none → s.busy = false → s.cmd = some c →
    step { s with rx := some a } = step { s with rx := none })

/-- The first two bytes of a response influence nothing (R39, R56, R72). -/
def Obligations.ResponseHeadIsIgnored : Prop :=
  ∀ (s : State) (x y x' y' z : Byte), s.busy = true → s.codec = none →
    step { s with rx := some (.ok ⟨x, y, z⟩) } = step { s with rx := some (.ok ⟨x', y', z⟩) }

/-- R139: an error leaves no trace in the block: the next event after any history is the same, whatever the outputs and
the trace so far. -/
def Obligations.StepForgetsHistory : Prop :=
  ∀ (s : State) (o : Outputs) (tr : List Event),
    match step s, step { s with out := o, trace := tr } with
    | .next t, .next u => ∃ ev, t.trace = s.trace ++ ev ∧ u.trace = tr ++ ev ∧ { u with trace := t.trace } = t
    | .fault f, .fault g => f = g
    | .refused r, .refused q => r = q
    | _, _ => False

/-- A success and an error leave the same state but for the result delivered and recorded (R84, R139). -/
def Obligations.ErrorLeavesTheBlockAsSuccessDoes : Prop :=
  ∀ (s : State) (e : ErrCode) (rx : Frame), s.codec = none → s.busy = true →
    ∃ t u, step { s with rx := some (.err e) } = .next t ∧ step { s with rx := some (.ok rx) } = .next u ∧
      t.out.res = some (.err e) ∧ u.out.res = some (.ok rx.b2) ∧ { t with out := u.out, trace := u.trace } = u

/-! ### Hold and hang -/

/-- R85: while busy no command is accepted: the one on the port stays there unchanged through every event, no frame is
issued, and what ends the hold is the event that delivers a result. -/
def Obligations.CommandIsHeldWhileBusy : Prop :=
  ∀ (s t : State) (c : Command), s.busy = true → s.cmd = some c → step s = .next t →
    s.cmdReady = false ∧ t.cmd = some c ∧ t.out.tx = none ∧
    ((t.busy = true ∧ t.trace = s.trace) ∨ ∃ r, t.busy = false ∧ t.out.res = some r ∧ t.trace = s.trace ++ [.complete r])

/-- Run on a busy block, a transaction waits on the command port: it is put there when the port is free, stays when it
stands there already, and a different one is refused as operands changed while held (R85, R155, U10). -/
def Obligations.TransactionWaitsWhileBusy : Prop :=
  ∀ (s : State) (b : Nat) (r d : Byte), s.busy = true →
    (s.cmd = none →
      exec (.writeRegister b r d) s = .next { s with cmd := some ⟨.write, b, r, d⟩, out := {} } ∧
      exec (.readRegister b r) s = .next { s with cmd := some ⟨.read, b, r, 0x00#8⟩, out := {} }) ∧
    (s.cmd = some ⟨.write, b, r, d⟩ → exec (.writeRegister b r d) s = .next { s with out := {} }) ∧
    (s.cmd = some ⟨.read, b, r, 0x00#8⟩ → exec (.readRegister b r) s = .next { s with out := {} }) ∧
    (∀ c, s.cmd = some c → c ≠ ⟨.write, b, r, d⟩ →
      exec (.writeRegister b r d) s = .refused .operandsChangedWhileHeld) ∧
    (∀ c, s.cmd = some c → c ≠ ⟨.read, b, r, 0x00#8⟩ →
      exec (.readRegister b r) s = .refused .operandsChangedWhileHeld)

/-- R88: while the Transport does not answer, through any number of events `busy` stays 1, the frame stays in flight, a
held command stays held, nothing is recorded and no result is delivered; and such a run exists, of every length. -/
def Obligations.UnansweredFrameHangs : Prop :=
  (∀ (k : Nat) (s t : State), Unanswered s → runSteps k s = .next t →
    Unanswered t ∧ t.inflight = s.inflight ∧ t.trace = s.trace ∧ (∀ c, s.cmd = some c → t.cmd = some c) ∧
      (0 < k → t.out.res = none ∧ t.out.tx = none)) ∧
  (∀ (k : Nat) (s : State), Unanswered s → s.moves = [] → ∃ t, runSteps k s = .next t)

/-- With the premise that the Transport answers, the transaction ends: two events after the answer is due the result is
delivered and the block is idle (R88, R161). -/
def Obligations.AnsweredFrameCompletes : Prop :=
  ∀ (s : State) (a : TransportChoice) (ms : List Move), s.codec = none → s.busy = true → s.rx = none →
    s.moves = .answer a :: ms →
    ∃ t, runSteps 2 s = .next t ∧ t.busy = false ∧ t.inflight = none ∧ t.moves = ms ∧ t.cmd = s.cmd ∧
      t.out.res = some (match a with | .ok rx => .ok rx.b2 | .ioError n => .err (.io n))

/-! ### Lifecycle, faults, refusals, reset -/

/-- After close a transaction faults, on an idle block, whichever it is and however it is asked for (R38 (c), R141,
U1, log 10). -/
def Obligations.UseAfterCloseFaults : Prop :=
  (∀ (s : State) (b : Nat) (r d : Byte), s.busy = false → s.tstate = .closed →
    exec (.writeRegister b r d) s = .fault .useAfterClose ∧ exec (.readRegister b r) s = .fault .useAfterClose) ∧
  (∀ (s : State) (c : Command), s.codec = none → s.busy = false → s.cmd = some c → s.tstate = .closed →
    step s = .fault .useAfterClose) ∧
  (∀ (s : State) (f : Fault), step s = .fault f → f = .useAfterClose ∧ s.tstate = .closed ∧ s.cmd.isSome = true)

/-- The Host's calls move the lifecycle as R19 says, and the moves the source gives no meaning (N14, U2; open while open,
log 11) are refused, as is a reset in the middle of a run (R152): on an idle block, and with a transaction in flight that has
no answer yet, whose frame and busy bit a close leaves as they are (log 22). -/
def Obligations.LifecycleMoves : Prop :=
  ∀ (s : State) (ms : List Move) (r : OpenOutcome), s.codec = none → s.rx = none → s.busy = true ∨ s.cmd = none →
    (s.tstate = .neverOpened → step { s with moves := .openTransport .succeeds :: ms } =
      .next { s with moves := ms, tstate := .opened, out := { ret := some .opened } }) ∧
    (s.tstate = .opened → step { s with moves := .closeTransport :: ms } =
      .next { s with moves := ms, tstate := .closed, out := { ret := some .closed } }) ∧
    (s.tstate = .neverOpened → step { s with moves := .closeTransport :: ms } = .refused .closeWithoutOpen) ∧
    (s.tstate = .closed → step { s with moves := .closeTransport :: ms } = .refused .secondClose) ∧
    (s.tstate = .closed → step { s with moves := .openTransport r :: ms } = .refused .openAfterClose) ∧
    (s.tstate = .opened → step { s with moves := .openTransport r :: ms } = .refused .openWhileOpen) ∧
    step { s with moves := .reset :: ms } = .refused .midRunReset

/-- Only the Host's calls move the lifecycle, and only forwards (R19, R91, R141): no instruction of the block and no
answer changes it. -/
def Obligations.OnlyTheHostMovesTheLifecycle : Prop :=
  (∀ (i : Instr) (s t : State), exec i s = .next t → t.tstate = s.tstate) ∧
  (∀ s t : State, step s = .next t → t.tstate = s.tstate ∨
    (∃ ms, s.moves = .openTransport .succeeds :: ms ∧ s.tstate = .neverOpened ∧ t.tstate = .opened) ∨
    (∃ ms, s.moves = .closeTransport :: ms ∧ s.tstate = .opened ∧ t.tstate = .closed))

/-- R22: the state right after reset, for what the rule fixes. -/
def Obligations.ResetState : Prop :=
  State.reset.busy = false ∧ State.reset.txValid = false ∧ State.reset.resValid = false ∧
  State.reset.cmdReady = true ∧ State.reset.tstate = .neverOpened ∧ State.reset.inflight = none

/-- The value of every signal of the four ports in every state (R15 to R18): `cmd_ready` is NOT `busy`; a port with nothing
on it has valid = 0; otherwise valid = 1 with the payload's values, an error with its code and no data, a success with its
data and no code. That a payload with no meaning is `none` is the model's form of U8 (log 4). -/
def Obligations.PortSignals : Prop :=
  ∀ s : State, s.cmdReady = !s.busy ∧
    (s.cmd = none → s.cmdValid = false ∧ s.cmdDir = none ∧ s.cmdBoard = none ∧ s.cmdReg = none ∧ s.cmdData = none) ∧
    (∀ c, s.cmd = some c → s.cmdValid = true ∧
      s.cmdDir = some (match c.dir with | .read => 1#1 | .write => 0#1) ∧ s.cmdBoard = some c.board ∧
      s.cmdReg = some c.reg ∧ s.cmdData = some c.data) ∧
    (s.out.tx = none → s.txValid = false ∧ s.txFrame = none) ∧
    (∀ f, s.out.tx = some f → s.txValid = true ∧ s.txFrame = some (f.b0 ++ f.b1 ++ f.b2)) ∧
    (s.rx = none → s.rxValid = false ∧ s.rxErr = none ∧ s.rxCode = none ∧ s.rxFrame = none) ∧
    (∀ f, s.rx = some (.ok f) → s.rxValid = true ∧ s.rxErr = some false ∧ s.rxCode = none ∧
      s.rxFrame = some (f.b0 ++ f.b1 ++ f.b2)) ∧
    (∀ e, s.rx = some (.err e) → s.rxValid = true ∧ s.rxErr = some true ∧ s.rxCode = some e ∧ s.rxFrame = none) ∧
    (s.out.res = none → s.resValid = false ∧ s.resErr = none ∧ s.resCode = none ∧ s.resData = none) ∧
    (∀ b, s.out.res = some (.ok b) → s.resValid = true ∧ s.resErr = some false ∧ s.resCode = none ∧
      s.resData = some b) ∧
    (∀ e, s.out.res = some (.err e) → s.resValid = true ∧ s.resErr = some true ∧ s.resCode = some e ∧
      s.resData = none)

/-! ### Whole-machine rules -/

/-- One event records at most one event of the block: nothing; or an Issue, from idle to busy, of the frame then in
flight and on the request port; or a Complete, from busy to idle, of the result then delivered (R37, R40, R87, R89). -/
def Obligations.OneEventAtATime : Prop :=
  ∀ s t : State, step s = .next t →
    (t.trace = s.trace ∧ t.busy = s.busy ∧ t.inflight = s.inflight ∧ t.out.tx = none ∧ t.out.res = none) ∨
    (∃ tx, t.trace = s.trace ++ [.issue tx] ∧ s.busy = false ∧ t.busy = true ∧ t.inflight = some tx ∧
      t.out = { tx := some tx }) ∨
    (∃ r, t.trace = s.trace ++ [.complete r] ∧ s.busy = true ∧ t.busy = false ∧ t.inflight = none ∧
      t.out = { res := some r })

/-- What reaches the bus is one frame per ISSUE over an open Transport, none before open, and nothing at any other event: no
retry, no repair, no read-back (R38 (a), R87). That the bus grows at the very event ISSUE, so that a stuck transfer counts
as on the bus, is the model's choice (log 16): the spec does not say when in the transfer the exchange takes place. -/
def Obligations.BusChangesOnlyAtIssue : Prop :=
  ∀ s t : State, step s = .next t →
    (t.out.tx = none ∧ t.bus = s.bus ∧ t.double = s.double) ∨
    (∃ tx, t.out.tx = some tx ∧ s.tstate = .opened ∧ t.bus = s.bus ++ [tx]) ∨
    (∃ tx, t.out.tx = some tx ∧ s.tstate = .neverOpened ∧ t.bus = s.bus ∧ t.double = s.double)

/-- The invariant of the machine is kept by every step, from every state that has it: busy exactly when a frame is in
flight, the trace alternates and leaves exactly that frame unanswered, every issued frame is producible, the bus is
silent until open and every frame in flight before open has `InitError` settled (standing on the response port from ISSUE
on: the model's choice, log 27), and the device registers keep their canonical form. -/
def Obligations.InvariantKeptByEveryStep : Prop :=
  ∀ s t : State, Inv s → step s = .next t → Inv t

/-- The state after reset has the invariant. -/
def Obligations.ResetHasTheInvariant : Prop := Inv State.reset

/-- A run is over only with the block idle and nothing in flight, and the trace is then a whole number of
transactions (R89). -/
def Obligations.FinalRunIsAllAnswered : Prop :=
  ∀ s : State, Inv s → Final s → pendingAfter none s.trace = some none ∧ s.busy = false ∧ s.trace.length % 2 = 0

/-! ### The device register space, with the reference double behind the Transport -/

/-- A write stores its byte at the one register it addresses (board modulo 8) and no other byte of the space changes; a
read changes none. Each completes, its answer is settled: the echo, or the byte of the register where it is known; over
the cross-wired double a read of port-B gives port-A's byte inverted (S12). The double is the spec's test fixture, not the
device (D23, log 8). That at the very event ISSUE the register is already written (log 16) and the answer already stands on
the response port (log 27) is the model's choice. -/
def Obligations.WriteStoresOneRegister : Prop :=
  ∀ (s : State) (d : Double) (b : Nat) (r v : Byte), s.busy = false → s.tstate = .opened → s.double = some d →
    d.fail = none →
    (∃ t d', exec (.writeRegister b r v) s = .next t ∧ t.double = some d' ∧
      t.rx = some (.ok ⟨0x00#8, 0x00#8, v⟩) ∧ d'.cross = d.cross ∧ d'.fail = none ∧
      d'.mem.read (regAddr (BitVec.ofNat 3 b) r) = some v ∧
      (∀ a, a ≠ regAddr (BitVec.ofNat 3 b) r → d'.mem.read a = d.mem.read a)) ∧
    (∃ t, exec (.readRegister b r) s = .next t ∧ t.double = some d ∧
      (d.cross = false ∨ r ≠ 0x13#8 →
        t.rx = (d.mem.read (regAddr (BitVec.ofNat 3 b) r)).map fun v => .ok ⟨0x00#8, 0x00#8, v⟩) ∧
      (d.cross = true → r = 0x13#8 →
        t.rx = (d.mem.read (regAddr (BitVec.ofNat 3 b) 0x12#8)).map fun v => .ok ⟨0x00#8, 0x00#8, v ^^^ 0xFF#8⟩))

/-- What the Host writes it reads back: over the double, a write transaction and then a read transaction of the same
register return the byte written, the rest of the space unchanged, and two frames have reached the bus. -/
def Obligations.WriteThenReadBack : Prop :=
  ∀ (s : State) (d : Double) (b : Nat) (r v : Byte), Idle s → s.tstate = .opened → s.double = some d →
    d.fail = none → d.cross = false →
    ∃ t u d', hostTransact ⟨.write, b, r, v⟩ s = .done (.ok v) t ∧
      hostTransact ⟨.read, b, r, 0x00#8⟩ t = .done (.ok v) u ∧ u.double = some d' ∧
      (∀ a, a ≠ regAddr (BitVec.ofNat 3 b) r → d'.mem.read a = d.mem.read a) ∧
      u.bus = s.bus ++ [⟨opcode b .write, r, v⟩, ⟨opcode b .read, r, 0x00#8⟩]

/-- A transfer that fails delivers its I/O error unmodified, and the register of a failed write holds the old byte or the
new one, both admitted (R132, U11); the injected error is gone for the next transfer. -/
def Obligations.FailedWriteOldOrNew : Prop :=
  ∀ (s : State) (d : Double) (n : Nat) (landed : Bool) (b : Nat) (r v : Byte), Idle s → s.tstate = .opened →
    s.double = some d → d.fail = some ⟨n, landed⟩ →
    ∃ t d', hostTransact ⟨.write, b, r, v⟩ s = .done (.error (.transport (.io n))) t ∧ t.double = some d' ∧
      d'.fail = none ∧
      d'.mem.read (regAddr (BitVec.ofNat 3 b) r) =
        (if landed then some v else d.mem.read (regAddr (BitVec.ofNat 3 b) r)) ∧
      (∀ a, a ≠ regAddr (BitVec.ofNat 3 b) r → d'.mem.read a = d.mem.read a)

/-! ### Host programs over the machine -/

/-- A sequential Host that runs any routine of transactions over an open Transport sees exactly what the routine's script
says over the Transport's answers: the same events, the same return value, and where the answers run out it is left
waiting with the block busy. -/
def Obligations.SequentialHostFollowsTheScript : Prop :=
  ∀ (α : Type) (p : HostProg α) (l : List TransportChoice) (s : State) (q : OpenOutcome), p.onlyTransacts → Idle s →
    s.tstate = .opened → s.double = none → s.moves = l.map .answer →
    match p.script l with
    | (ev, some v, rest) => ∃ t, p.run q s = .done v t ∧ t.trace = s.trace ++ ev ∧ t.moves = rest.map .answer ∧
        t.busy = false ∧ t.tstate = .opened
    | (ev, none, _) => ∃ t, p.run q s = .waiting t ∧ t.trace = s.trace ++ ev ∧ Unanswered t

/-- R101 and R102: the mask helpers, for every pin and every mask. -/
def Obligations.MaskHelpers : Prop :=
  (∀ pin : Int, (0 ≤ pin ∧ pin ≤ 7 → ∃ m, pinBitMask pin = .ok m ∧ m.toNat = 2 ^ pin.toNat) ∧
    (pin < 0 ∨ 7 < pin → pinBitMask pin = .error .pinRange)) ∧
  (∀ mask : Nat, (∀ i < 8, mask.testBit i = true → (∀ j < i, mask.testBit j = false) → pinNumberFromMask mask = i) ∧
    ((∀ i < 8, mask.testBit i = false) → pinNumberFromMask mask = 0))

/-- R103 to R107: each whole-port routine performs the one transaction its expansion names, returns the byte (inverted
for the input port) or the transport error unchanged, over an open Transport that answers next. -/
def Obligations.WholePortRoutines : Prop :=
  ∀ (s : State) (b : Nat) (data : Byte) (q : OpenOutcome) (a : TransportChoice) (ms : List Move), Idle s →
    s.tstate = .opened → s.double = none → s.moves = .answer a :: ms →
    ∀ (p : HostProg Byte) (tx : Frame) (f : Byte → Byte),
      (p = readOutput b ∧ tx = ⟨opcode b .read, 0x12#8, 0x00#8⟩ ∧ f = id) ∨
      (p = writeOutput data b ∧ tx = ⟨opcode b .write, 0x12#8, data⟩ ∧ f = id) ∨
      (p = readInput b ∧ tx = ⟨opcode b .read, 0x13#8, 0x00#8⟩ ∧ f = fun raw => ~~~raw) ∨
      (p = readPullup b ∧ tx = ⟨opcode b .read, 0x0D#8, 0x00#8⟩ ∧ f = id) ∨
      (p = writePullup data b ∧ tx = ⟨opcode b .write, 0x0D#8, data⟩ ∧ f = id) →
      ∃ t, p.run q s = .done (match a with | .ok rx => .ok (f rx.b2) | .ioError n => .error (.transport (.io n))) t ∧
        t.bus = s.bus ++ [tx] ∧ t.moves = ms ∧ Idle t

/-- R108 and R110: digital_write and digital_write_pullup read the register, set or clear the one bit, and write the
byte back, the other bits as read; a pin out of range issues no frame; when the read fails the write is not issued. That
the byte of the write is what the routine returns is the model's choice (log 28). -/
def Obligations.PinWriteIsReadModifyWrite : Prop :=
  ∀ (s : State) (pin value : Int) (b : Nat) (q : OpenOutcome), Idle s → s.tstate = .opened → s.double = none →
    ∀ (p : HostProg Byte) (reg : Byte),
      (p = digitalWrite pin value b ∧ reg = 0x12#8) ∨ (p = digitalWritePullup pin value b ∧ reg = 0x0D#8) →
      (pin < 0 ∨ 7 < pin → p.run q s = .done (.error .pinRange) s) ∧
      (0 ≤ pin → pin ≤ 7 → ∀ (rx : Frame) (a : TransportChoice) (ms : List Move),
        s.moves = .answer (.ok rx) :: .answer a :: ms →
        ∃ t new, p.run q s =
            .done (match a with | .ok rx => .ok rx.b2 | .ioError n => .error (.transport (.io n))) t ∧
          t.bus = s.bus ++ [⟨opcode b .read, reg, 0x00#8⟩, ⟨opcode b .write, reg, new⟩] ∧ t.moves = ms ∧
          (∀ i : Nat, i < 8 → new.getLsbD i = if (i : Int) = pin then decide (value ≠ 0) else rx.b2.getLsbD i)) ∧
      (0 ≤ pin → pin ≤ 7 → ∀ (n : Nat) (ms : List Move), s.moves = .answer (.ioError n) :: ms →
        ∃ t, p.run q s = .done (.error (.transport (.io n))) t ∧
          t.bus = s.bus ++ [⟨opcode b .read, reg, 0x00#8⟩] ∧ t.moves = ms)

/-- R109 and R111: digital_read gives 1 exactly for a pin whose raw input bit is 0, digital_read_pullup exactly for a
pull-up bit that is 1; a pin out of range issues no frame; a transport error is passed on. -/
def Obligations.PinReadNormalises : Prop :=
  ∀ (s : State) (pin : Int) (b : Nat) (q : OpenOutcome), Idle s → s.tstate = .opened → s.double = none →
    ∀ (p : HostProg Nat) (reg : Byte) (active : Bool),
      (p = digitalRead pin b ∧ reg = 0x13#8 ∧ active = false) ∨
      (p = digitalReadPullup pin b ∧ reg = 0x0D#8 ∧ active = true) →
      (pin < 0 ∨ 7 < pin → p.run q s = .done (.error .pinRange) s) ∧
      (0 ≤ pin → pin ≤ 7 → ∀ (a : TransportChoice) (ms : List Move), s.moves = .answer a :: ms →
        ∃ t, p.run q s = .done (match a with
            | .ok rx => .ok (if rx.b2.getLsbD pin.toNat = active then 1 else 0)
            | .ioError n => .error (.transport (.io n))) t ∧
          t.bus = s.bus ++ [⟨opcode b .read, reg, 0x00#8⟩] ∧ t.moves = ms)

/-- R112 and R113: init opens the Transport and then issues exactly the forty-eight write frames, board by board and then
the final pass, whatever the four data values are and whatever the answers hold; without ports it only opens; a failed
open issues nothing. -/
def Obligations.BringUpIssuesTheFixedFrames : Prop :=
  ∀ (s : State) (v : Config.BringUpValues) (rxs : List Frame), Idle s → s.tstate = .neverOpened → s.double = none →
    rxs.length = 48 → s.moves = rxs.map (fun rx => .answer (.ok rx)) →
    (∃ t, (init true v).run .succeeds s = .done (.ok ()) t ∧ t.tstate = .opened ∧ Idle t ∧ t.moves = [] ∧
      t.bus = s.bus ++
        ((List.range 8).flatMap fun b =>
          [⟨opcode b .write, 0x0A#8, v.haenValue⟩, ⟨opcode b .write, 0x12#8, 0x00#8⟩,
           ⟨opcode b .write, 0x00#8, v.allOutputs⟩, ⟨opcode b .write, 0x01#8, v.allInputs⟩,
           ⟨opcode b .write, 0x0D#8, v.allPullups⟩]) ++
        (List.range 8).map fun b => ⟨opcode b .write, 0x12#8, 0x00#8⟩) ∧
    (∃ t, (init false v).run .succeeds s = .done (.ok ()) t ∧ t.tstate = .opened ∧ t.bus = s.bus ∧ t.trace = s.trace) ∧
    (∀ ports : Bool, ∃ t, (init ports v).run .nodeUnavailable s = .done (.error (.transport .initError)) t ∧
      t.tstate = .neverOpened ∧ t.bus = s.bus ∧ t.trace = s.trace)

/-- deinit closes the Transport and issues nothing (R114); any transaction after it is the fault useAfterClose, which is
U1's treatment as the model reads it (log 10). -/
def Obligations.DeinitThenAnyTransactionFaults : Prop :=
  ∀ (s : State) (q : OpenOutcome), Idle s → s.tstate = .opened →
    ∃ t, deinit.run q s = .done (.ok ()) t ∧ t.tstate = .closed ∧ t.trace = s.trace ∧ t.bus = s.bus ∧ Idle t ∧
      ∀ (α : Type) (c : Command) (k : Byte → HostProg α), (HostProg.transact c k).run q t = .fault .useAfterClose

/-- R116 (the transport half), for any sequence of commands: the error of the k-th transaction ends the sequence there,
the frames before it and its own have been issued and none after it. -/
def Obligations.TransportErrorStopsTheSequence : Prop :=
  ∀ (cs : List Command) (c : Command) (rest : List Command) (s : State) (q : OpenOutcome) (rxs : List Frame) (n : Nat)
    (ms : List Move), Idle s → s.tstate = .opened → s.double = none → rxs.length = cs.length →
    s.moves = rxs.map (fun rx => .answer (.ok rx)) ++ .answer (.ioError n) :: ms →
    ∃ t, (inOrder (cs ++ c :: rest)).run q s = .done (.error (.transport (.io n))) t ∧
      t.bus = s.bus ++ cs.map requestFrame ++ [requestFrame c] ∧ t.moves = ms ∧ Idle t

/-- R156: two hosts setting different pins of one board's output register without serialising: read, read, write, write
loses the first one's update, for every register value that is known; the serialised order keeps both. -/
def Obligations.LostUpdateIsAdmitted : Prop :=
  ∀ (s : State) (d : Double) (b : Nat) (v : Byte) (p q : Nat), Idle s → s.tstate = .opened → s.double = some d →
    d.fail = none → d.mem.read (regAddr (BitVec.ofNat 3 b) Config.portA) = some v → p < 8 → q < 8 →
    (∃ x t d', interleave [true, false, true, false] (digitalWrite p 1 b) (digitalWrite q 1 b) s = .done (.ok x) t ∧
      t.double = some d' ∧
      d'.mem.read (regAddr (BitVec.ofNat 3 b) Config.portA) = some (v ||| 1#8 <<< q)) ∧
    (∃ x t d', interleave [true, true, false, false] (digitalWrite p 1 b) (digitalWrite q 1 b) s = .done (.ok x) t ∧
      t.double = some d' ∧
      d'.mem.read (regAddr (BitVec.ofNat 3 b) Config.portA) = some (v ||| 1#8 <<< p ||| 1#8 <<< q))

/-- The contract of the view objects (R115): the ranges and their errors, below and above; the kind and board a view holds
(its pin is free, log 20); an LED and a Relay delegate their setter to digital_write, a Switch its reading to digital_read,
and a Switch's setter refuses without a transaction. -/
def Obligations.ViewObjectContract : Prop :=
  (∀ (i : Int) (b : Nat),
    ((∃ v, mkView .led i b = .ok v) ↔ 0 ≤ i ∧ i ≤ 7) ∧ ((∃ v, mkView .relay i b = .ok v) ↔ 0 ≤ i ∧ i ≤ 1) ∧
    ((∃ v, mkView .switch i b = .ok v) ↔ 0 ≤ i ∧ i ≤ 3) ∧
    (i < 0 ∨ 7 < i → mkView .led i b = .error .ledRange) ∧ (i < 0 ∨ 1 < i → mkView .relay i b = .error .relayRange) ∧
    (i < 0 ∨ 3 < i → mkView .switch i b = .error .switchRange)) ∧
  (∀ (kind : Config.ViewKind) (i : Int) (b : Nat) (v : View), mkView kind i b = .ok v →
    v.kind = kind ∧ v.board = b ∧ v.pin = Config.viewPin kind i.toNat) ∧
  (∀ (v : View) (value : Int), v.kind = .led ∨ v.kind = .relay → v.setValue value = digitalWrite v.pin value v.board) ∧
  (∀ v : View, v.kind = .switch → v.getValue = some (digitalRead v.pin v.board)) ∧
  (∀ (v : View) (value : Int) (q : OpenOutcome) (s : State), v.kind = .switch →
    (v.setValue value).run q s = .done (.error .inputDevice) s)

/-- Over the cross-wired double (S12, D23, log 8): digital_write of a pin and then digital_read of it give 1 for a true value
and 0 for a false one, and the output register holds the old byte with that one bit set or cleared. -/
def Obligations.CrossWiredPinReadsBack : Prop :=
  ∀ (s : State) (d : Double) (b : Nat) (v : Byte) (p : Nat) (value : Int) (q : OpenOutcome), Idle s →
    s.tstate = .opened → s.double = some d → d.fail = none → d.cross = true →
    d.mem.read (regAddr (BitVec.ofNat 3 b) 0x12#8) = some v → p < 8 →
    ∃ t u d' x, (digitalWrite p value b).run q s = .done (.ok x) t ∧
      (digitalRead p b).run q t = .done (.ok (if value ≠ 0 then 1 else 0)) u ∧ u.double = some d' ∧
      d'.mem.read (regAddr (BitVec.ofNat 3 b) 0x12#8) =
        some (if value ≠ 0 then v ||| 1#8 <<< p else v &&& ~~~(1#8 <<< p))
end

