-- ==== Sys2Proof/Laws/Codec.lean ====
section
/-! SUPPORT. The arithmetic of the opcode and the bits of the encodings. -/

namespace Sys2Proof

/-- The shifted and masked board index of R70 is the three-bit field of R52, one place up. -/
theorem shift_mask_eq (b : Nat) :
    (BitVec.ofNat 8 (b <<< 1) &&& 0x0E#8) = (BitVec.ofNat 3 b).setWidth 8 <<< 1 := by
  have h1 : BitVec.ofNat 8 (b <<< 1) = BitVec.ofNat 8 b <<< 1 := by
    apply BitVec.eq_of_toNat_eq
    simp [Nat.shiftLeft_eq]
  have h2 : BitVec.ofNat 3 b = (BitVec.ofNat 8 b).setWidth 3 := by
    apply BitVec.eq_of_toNat_eq
    simp
  rw [h1, h2]
  generalize BitVec.ofNat 8 b = x
  revert x
  decide

@[simp] theorem Dir.ofBit_bit (d : Dir) : Dir.ofBit d.bit = d := by cases d <;> rfl

theorem Dir.bit_ofBit (w : BitVec 1) : (Dir.ofBit w).bit = w := by revert w; decide

/-- A frame is its 24-bit number (R50). -/
theorem Frame.ofBits_toBits (f : Frame) : Frame.ofBits f.toBits = f := by
  obtain ⟨x, y, z⟩ := f
  simp only [Frame.ofBits, Frame.toBits, Frame.mk.injEq]
  refine ⟨?_, ?_, ?_⟩ <;> ext i hi <;>
    simp only [BitVec.getElem_extractLsb', BitVec.getLsbD_append]
  · simp [show ¬ 16 + i < 8 by omega, show ¬ 16 + i - 8 < 8 by omega, show 16 + i - 8 - 8 = i by omega,
      BitVec.getLsbD_eq_getElem hi]
  · simp [hi]
  · simp [hi]

end Sys2Proof
end

