-- ==== Sys2Proof/Laws/Memory.lean ====
section
/-! SUPPORT. The device register space: read after write, the canonical form, and the memory of the double. -/

namespace Sys2Proof.Machine

/-- A read after a write: the written byte at its address, every other address as before. -/
theorem Memory.read_write (m : Memory) (a b : Nat) (v : Byte) :
    (m.write a v).read b = if b = a then some v else m.read b := by
  induction m with
  | nil => simp [Memory.write, Memory.read]
  | cons c m ih =>
    obtain ⟨k, w⟩ := c
    rcases lt_trichotomy a k with h | h | h
    · simp [Memory.write, h, Memory.read]
    · subst h
      by_cases hb : b = a <;> simp [Memory.write, Memory.read, hb]
    · have h1 : ¬ a < k := by omega
      have h2 : a ≠ k := by omega
      by_cases hb : b = k
      · have : b ≠ a := by omega
        simp [Memory.write, Memory.read, h1, h2, hb, h2.symm]
      · simp [Memory.write, Memory.read, h1, h2, hb, ih]

theorem Memory.mem_write {m : Memory} {a : Nat} {v : Byte} {c : Host.Cell} (h : c ∈ m.write a v) :
    c = (a, v) ∨ c ∈ m := by
  induction m with
  | nil => simpa [Memory.write] using h
  | cons d m ih =>
    obtain ⟨k, w⟩ := d
    unfold Memory.write at h
    split_ifs at h <;> simp only [List.mem_cons] at h ⊢ <;> tauto

/-- Every write keeps the canonical form. -/
theorem Memory.write_wf {m : Memory} {a : Nat} (v : Byte) (hm : m.wf) (ha : a < Memory.size) : (m.write a v).wf := by
  refine ⟨?_, fun c hc => ?_⟩
  · have hs := hm.1
    clear hm
    induction m with
    | nil => simp [Memory.write]
    | cons d m ih =>
      obtain ⟨k, w⟩ := d
      simp only [List.map_cons, List.pairwise_cons] at hs
      unfold Memory.write
      split_ifs with h1 h2
      · simp only [List.map_cons, List.pairwise_cons]
        refine ⟨fun x hx => ?_, hs⟩
        rcases List.mem_cons.mp hx with rfl | hx
        · exact h1
        · exact lt_trans h1 (hs.1 x hx)
      · subst h2; simpa only [List.map_cons, List.pairwise_cons] using hs
      · simp only [List.map_cons, List.pairwise_cons]
        refine ⟨fun x hx => ?_, ih hs.2⟩
        obtain ⟨c, hc, rfl⟩ := List.mem_map.mp hx
        rcases Memory.mem_write hc with rfl | hc
        · exact lt_of_le_of_ne (not_lt.mp h1) (Ne.symm h2)
        · exact hs.1 _ (List.mem_map_of_mem hc)
  · rcases Memory.mem_write hc with rfl | hc
    · exact ha
    · exact hm.2 c hc

/-- Every location of the space exists (R30). -/
theorem regAddr_lt (a : BitVec 3) (r : Byte) : regAddr a r < Memory.size := by
  have := a.isLt
  have := r.isLt
  unfold regAddr Memory.size
  omega

/-- Two locations with the same key are the same. -/
theorem regAddr_inj {a b : BitVec 3} {r q : Byte} : regAddr a r = regAddr b q ↔ a = b ∧ r = q := by
  have := r.isLt
  have := q.isLt
  constructor
  · intro h
    unfold regAddr at h
    exact ⟨BitVec.eq_of_toNat_eq (by omega), BitVec.eq_of_toNat_eq (by omega)⟩
  · rintro ⟨rfl, rfl⟩; rfl

theorem Double.landWrite_wf {m : Memory} (tx : Frame) (h : m.wf) : (Double.landWrite m tx).wf := by
  unfold Double.landWrite
  split
  · exact Memory.write_wf _ h (regAddr_lt _ _)
  · exact h
  · exact h

/-- The double keeps its registers in canonical form. -/
theorem Double.transfer_wf {d : Double} (tx : Frame) (h : d.mem.wf) : (d.transfer tx).1.mem.wf := by
  unfold Double.transfer
  cases d.fail with
  | some f =>
    show (if f.landed then Double.landWrite d.mem tx else d.mem).wf
    split_ifs
    · exact Double.landWrite_wf tx h
    · exact h
  | none =>
    simp only []
    split
    · exact h
    · exact Double.landWrite_wf tx h
    · exact h

end Sys2Proof.Machine
end

