-- ==== Sys2Proof/Laws/State.lean ====
section
/-! SUPPORT. One lemma per field per update of the state, each true by rfl. -/

namespace Sys2Proof.Machine.State

variable (s : State) (tx : Frame) (a : Answer)

@[simp] theorem quiet_busy : s.quiet.busy = s.busy := rfl
@[simp] theorem quiet_inflight : s.quiet.inflight = s.inflight := rfl
@[simp] theorem quiet_tstate : s.quiet.tstate = s.tstate := rfl
@[simp] theorem quiet_cmd : s.quiet.cmd = s.cmd := rfl
@[simp] theorem quiet_rx : s.quiet.rx = s.rx := rfl
@[simp] theorem quiet_codec : s.quiet.codec = s.codec := rfl
@[simp] theorem quiet_out : s.quiet.out = {} := rfl
@[simp] theorem quiet_trace : s.quiet.trace = s.trace := rfl
@[simp] theorem quiet_bus : s.quiet.bus = s.bus := rfl
@[simp] theorem quiet_double : s.quiet.double = s.double := rfl
@[simp] theorem quiet_moves : s.quiet.moves = s.moves := rfl

@[simp] theorem ignoreResponse_busy : s.ignoreResponse.busy = s.busy := rfl
@[simp] theorem ignoreResponse_inflight : s.ignoreResponse.inflight = s.inflight := rfl
@[simp] theorem ignoreResponse_tstate : s.ignoreResponse.tstate = s.tstate := rfl
@[simp] theorem ignoreResponse_cmd : s.ignoreResponse.cmd = s.cmd := rfl
@[simp] theorem ignoreResponse_rx : s.ignoreResponse.rx = none := rfl
@[simp] theorem ignoreResponse_codec : s.ignoreResponse.codec = s.codec := rfl
@[simp] theorem ignoreResponse_out : s.ignoreResponse.out = {} := rfl
@[simp] theorem ignoreResponse_trace : s.ignoreResponse.trace = s.trace := rfl
@[simp] theorem ignoreResponse_bus : s.ignoreResponse.bus = s.bus := rfl
@[simp] theorem ignoreResponse_double : s.ignoreResponse.double = s.double := rfl
@[simp] theorem ignoreResponse_moves : s.ignoreResponse.moves = s.moves := rfl

@[simp] theorem complete_busy : (s.complete a).busy = false := rfl
@[simp] theorem complete_inflight : (s.complete a).inflight = none := rfl
@[simp] theorem complete_tstate : (s.complete a).tstate = s.tstate := rfl
@[simp] theorem complete_cmd : (s.complete a).cmd = s.cmd := rfl
@[simp] theorem complete_rx : (s.complete a).rx = none := rfl
@[simp] theorem complete_codec : (s.complete a).codec = s.codec := rfl
@[simp] theorem complete_out : (s.complete a).out = { res := some a.toResult } := rfl
@[simp] theorem complete_trace : (s.complete a).trace = s.trace ++ [.complete a.toResult] := rfl
@[simp] theorem complete_bus : (s.complete a).bus = s.bus := rfl
@[simp] theorem complete_double : (s.complete a).double = s.double := rfl
@[simp] theorem complete_moves : (s.complete a).moves = s.moves := rfl

@[simp] theorem issue_busy : (s.issue tx).busy = true := rfl
@[simp] theorem issue_inflight : (s.issue tx).inflight = some tx := rfl
@[simp] theorem issue_tstate : (s.issue tx).tstate = s.tstate := rfl
@[simp] theorem issue_cmd : (s.issue tx).cmd = s.cmd := rfl
@[simp] theorem issue_rx : (s.issue tx).rx = settledAnswer tx s := rfl
@[simp] theorem issue_codec : (s.issue tx).codec = s.codec := rfl
@[simp] theorem issue_out : (s.issue tx).out = { tx := some tx } := rfl
@[simp] theorem issue_trace : (s.issue tx).trace = s.trace ++ [.issue tx] := rfl
@[simp] theorem issue_bus : (s.issue tx).bus = busAfter tx s := rfl
@[simp] theorem issue_double : (s.issue tx).double = doubleAfter tx s := rfl
@[simp] theorem issue_moves : (s.issue tx).moves = s.moves := rfl

/-! ### The Transport's side of an issued frame, by lifecycle -/

theorem settledAnswer_neverOpened (h : s.tstate = .neverOpened) :
    settledAnswer tx s = some (.err .initError) := by simp [settledAnswer, h]
theorem settledAnswer_noDouble (h : s.tstate = .opened) (hd : s.double = none) :
    settledAnswer tx s = none := by simp [settledAnswer, h, hd]
theorem settledAnswer_double {d : Double} (h : s.tstate = .opened) (hd : s.double = some d) :
    settledAnswer tx s = (d.transfer tx).2 := by simp [settledAnswer, h, hd]

theorem busAfter_neverOpened (h : s.tstate = .neverOpened) : busAfter tx s = s.bus := by simp [busAfter, h]
theorem busAfter_opened (h : s.tstate = .opened) : busAfter tx s = s.bus ++ [tx] := by simp [busAfter, h]

theorem doubleAfter_neverOpened (h : s.tstate = .neverOpened) : doubleAfter tx s = s.double := by
  simp [doubleAfter, h]
theorem doubleAfter_none (hd : s.double = none) : doubleAfter tx s = none := by
  cases h : s.tstate <;> simp [doubleAfter, h, hd]
theorem doubleAfter_double {d : Double} (h : s.tstate = .opened) (hd : s.double = some d) :
    doubleAfter tx s = some (d.transfer tx).1 := by simp [doubleAfter, h, hd]

end Sys2Proof.Machine.State
end

