-- ==== Sys2Proof/Laws/Step.lean ====
section
/-! SUPPORT. Everything one event can do: an inversion lemma per shared operation, and one for `step`. -/

namespace Sys2Proof.Machine

variable {s t : State}

/-- The data byte of a read command does not reach the frame (R55). -/
@[simp] theorem requestFrame_read (b : Nat) (r d : Byte) :
    requestFrame ⟨.read, b, r, d⟩ = ⟨opcode b .read, r, Config.readFill⟩ := rfl

@[simp] theorem requestFrame_write (b : Nat) (r d : Byte) :
    requestFrame ⟨.write, b, r, d⟩ = ⟨opcode b .write, r, d⟩ := rfl

/-- What running an accepted command does. -/
theorem exec_command (c : Command) (h : s.busy = false) :
    exec c.toInstr s = if s.tstate = .closed then .fault .useAfterClose else .next (s.issue (requestFrame c)) := by
  obtain ⟨_ | _, b, r, d⟩ := c <;>
    simp [Command.toInstr, exec, execWriteRegister, execReadRegister, issueCommand, h]

/-- What a call of OPCODE does. -/
theorem exec_opcodeCall (q : OpcodeCall) :
    exec q.toInstr s = .next { s with out := { ret := some (.opcode (opcode q.board q.dir)) } } := by
  obtain ⟨b, _ | _⟩ := q <;> rfl

/-- Everything driving the command port can do. -/
theorem driveCommand_next {p : Option Command} (h : driveCommand p s = .next t) :
    (s.cmd = none ∧ t = { s with cmd := p, out := {} }) ∨ (∃ c, s.cmd = some c ∧ p = some c ∧ t = s.quiet) := by
  unfold driveCommand at h
  cases hc : s.cmd with
  | none => rw [hc] at h; simp only [Host.Outcome.next.injEq] at h; exact .inl ⟨rfl, h.symm⟩
  | some c =>
    rw [hc] at h
    simp only [] at h
    split_ifs at h with hp
    simp only [Host.Outcome.next.injEq] at h
    exact .inr ⟨c, rfl, hp, h.symm⟩

/-- Everything `open()` can do. -/
theorem hostOpen_next {r : OpenOutcome} (h : hostOpen r s = .next t) :
    s.tstate = .neverOpened ∧
      ((r = .succeeds ∧ t = { s with tstate := .opened, out := { ret := some .opened } }) ∨
        ∃ e, t = { s with out := { ret := some (.openFailed e) } }) := by
  unfold hostOpen at h
  cases ht : s.tstate <;> rw [ht] at h <;> simp only [reduceCtorEq] at h
  refine ⟨rfl, ?_⟩
  cases r <;> simp only [Host.Outcome.next.injEq] at h <;> subst h <;> simp

/-- Everything `close` can do. -/
theorem hostClose_next (h : hostClose s = .next t) :
    s.tstate = .opened ∧ t = { s with tstate := .closed, out := { ret := some .closed } } := by
  unfold hostClose at h
  cases ht : s.tstate <;> rw [ht] at h <;> simp only [reduceCtorEq, Host.Outcome.next.injEq] at h
  exact ⟨rfl, h.symm⟩

/-- Everything a choice of the environment can do. -/
theorem applyMove_next {m : Move} (h : applyMove m s = .next t) :
    (∃ p, m = .drive p ∧ s.cmd = none ∧ t = { s with cmd := p, out := {} }) ∨
    (∃ c, m = .drive (some c) ∧ s.cmd = some c ∧ t = s.quiet) ∨
    (∃ q, m = .callOpcode q ∧ t = { s with codec := some q, out := {} }) ∨
    (m = .openTransport .succeeds ∧ s.tstate = .neverOpened ∧
      t = { s with tstate := .opened, out := { ret := some .opened } }) ∨
    (∃ r e, m = .openTransport r ∧ s.tstate = .neverOpened ∧ t = { s with out := { ret := some (.openFailed e) } }) ∨
    (m = .closeTransport ∧ s.tstate = .opened ∧ t = { s with tstate := .closed, out := { ret := some .closed } }) ∨
    (∃ a, m = .answer a ∧ t = { s with rx := some a.toAnswer, out := {} }) := by
  cases m with
  | drive p =>
    rcases driveCommand_next h with ⟨hc, ht⟩ | ⟨c, hc, hp, ht⟩
    · exact .inl ⟨p, rfl, hc, ht⟩
    · exact .inr (.inl ⟨c, by rw [hp], hc, ht⟩)
  | callOpcode q => simp only [applyMove, Host.Outcome.next.injEq] at h; exact .inr (.inr (.inl ⟨q, rfl, h.symm⟩))
  | openTransport r =>
    rcases hostOpen_next h with ⟨hs, ⟨hr, ht⟩ | ⟨e, ht⟩⟩
    · exact .inr (.inr (.inr (.inl ⟨by rw [hr], hs, ht⟩)))
    · exact .inr (.inr (.inr (.inr (.inl ⟨r, e, rfl, hs, ht⟩))))
  | closeTransport =>
    obtain ⟨hs, ht⟩ := hostClose_next h
    exact .inr (.inr (.inr (.inr (.inr (.inl ⟨rfl, hs, ht⟩)))))
  | answer a =>
    simp only [applyMove, Host.Outcome.next.injEq] at h
    exact .inr (.inr (.inr (.inr (.inr (.inr ⟨a, rfl, h.symm⟩)))))
  | reset => simp [applyMove] at h

/-! ### `step`, case by case -/

/-- A pending call of OPCODE is served first. -/
theorem step_codec {q : OpcodeCall} (h : s.codec = some q) :
    step s = .next { s with codec := none, out := { ret := some (.opcode (opcode q.board q.dir)) } } := by
  simp [step, fetch, h, exec_opcodeCall]

/-- An idle block accepts the command on its port. -/
theorem step_command {c : Command} (hq : s.codec = none) (hb : s.busy = false) (hc : s.cmd = some c) :
    step s = exec c.toInstr { s with cmd := none } := by
  simp [step, fetch, hq, hb, hc, State.cmdReady]

/-- ISSUE (R82). -/
theorem step_issue {c : Command} (hq : s.codec = none) (hb : s.busy = false) (hc : s.cmd = some c)
    (ht : s.tstate ≠ .closed) : step s = .next (({ s with cmd := none } : State).issue (requestFrame c)) := by
  rw [step_command hq hb hc, exec_command c (s := { s with cmd := none }) hb, if_neg ht]

/-- While busy, or with no command on the port, no instruction starts. -/
theorem step_other (hq : s.codec = none) (h : s.busy = true ∨ s.cmd = none) : step s = otherEvent s := by
  rcases h with h | h
  · cases hc : s.cmd <;> simp [step, fetch, hq, hc, State.cmdReady, h]
  · simp [step, fetch, hq, h]

/-- COMPLETE (R83, R84). -/
theorem step_complete {a : Answer} (hq : s.codec = none) (hb : s.busy = true) (hr : s.rx = some a) :
    step s = .next (s.complete a) := by
  simp [step_other hq (.inl hb), otherEvent, hr, hb]

/-- The environment's next choice. -/
theorem step_move {m : Move} {ms : List Move} (hq : s.codec = none) (h : s.busy = true ∨ s.cmd = none)
    (hr : s.rx = none) (hm : s.moves = m :: ms) : step s = applyMove m { s with moves := ms } := by
  simp [step_other hq h, otherEvent, hr, hm]

/-- Nothing to do. -/
theorem step_quiet (hq : s.codec = none) (h : s.busy = true ∨ s.cmd = none) (hr : s.rx = none) (hm : s.moves = []) :
    step s = .next s.quiet := by
  simp [step_other hq h, otherEvent, hr, hm]

/-- Everything one event can do. -/
theorem step_next (h : step s = .next t) :
    (∃ q, s.codec = some q ∧ t = { s with codec := none, out := { ret := some (.opcode (opcode q.board q.dir)) } }) ∨
    (∃ c, s.codec = none ∧ s.busy = false ∧ s.cmd = some c ∧ s.tstate ≠ .closed ∧
      t = ({ s with cmd := none } : State).issue (requestFrame c)) ∨
    (∃ a, s.codec = none ∧ s.busy = true ∧ s.rx = some a ∧ t = s.complete a) ∨
    (∃ a, s.codec = none ∧ s.busy = false ∧ s.cmd = none ∧ s.rx = some a ∧ t = s.ignoreResponse) ∨
    (s.codec = none ∧ (s.busy = true ∨ s.cmd = none) ∧ s.rx = none ∧ s.moves = [] ∧ t = s.quiet) ∨
    (∃ m ms, s.codec = none ∧ (s.busy = true ∨ s.cmd = none) ∧ s.rx = none ∧ s.moves = m :: ms ∧
      applyMove m { s with moves := ms } = .next t) := by
  rcases Option.eq_none_or_eq_some s.codec with hq | ⟨q, hq⟩
  · right
    by_cases hbc : s.busy = true ∨ s.cmd = none
    · right
      rcases Option.eq_none_or_eq_some s.rx with hr | ⟨a, hr⟩
      · cases hm : s.moves with
        | nil =>
          rw [step_quiet hq hbc hr hm, Host.Outcome.next.injEq] at h
          exact .inr (.inr (.inl ⟨hq, hbc, hr, rfl, h.symm⟩))
        | cons m ms =>
          rw [step_move hq hbc hr hm] at h
          exact .inr (.inr (.inr ⟨m, ms, hq, hbc, hr, rfl, h⟩))
      · rw [step_other hq hbc, otherEvent, hr] at h
        simp only [Host.Outcome.next.injEq] at h
        by_cases hb : s.busy = true
        · rw [if_pos hb] at h
          exact .inl ⟨a, hq, hb, hr, h.symm⟩
        · rw [if_neg hb] at h
          exact .inr (.inl ⟨a, hq, by simpa using hb, hbc.resolve_left hb, hr, h.symm⟩)
    · left
      simp only [not_or, Bool.not_eq_true] at hbc
      obtain ⟨c, hc⟩ := Option.ne_none_iff_exists'.mp hbc.2
      rw [step_command hq hbc.1 hc, exec_command c (s := { s with cmd := none }) hbc.1] at h
      split_ifs at h with ht
      rw [Host.Outcome.next.injEq] at h
      exact ⟨c, hq, hbc.1, hc, ht, h.symm⟩
  · rw [step_codec hq, Host.Outcome.next.injEq] at h
    exact .inl ⟨q, hq, h.symm⟩

end Sys2Proof.Machine
end

