-- ==== Sys2Proof/Laws/HostPrograms.lean ====
section
/-! SUPPORT. What one whole transaction of a sequential Host does, by the kind of Transport. -/

namespace Sys2Proof.Machine

variable {s : State}

/-- What the Host got from a result. -/
def HostRun.ofResult (r : Result) (s : State) : HostRun Byte :=
  match r with
  | .ok b => .done (.ok b) s
  | .err e => .done (.error (.transport e)) s

/-- The state after a whole transaction with the frame `tx`, the answer `a` and the environment's `ms` left. -/
def State.afterTransaction (tx : Frame) (a : Answer) (ms : List Move) (s : State) : State :=
  { s with
    busy := false, inflight := none, cmd := none, rx := none, codec := none
    out := { res := some a.toResult }
    trace := s.trace ++ [.issue tx, .complete a.toResult]
    bus := busAfter tx s
    double := doubleAfter tx s
    moves := ms }

/-- Stepping on until the result: an event without a result. -/
theorem awaitResult_more {n : Nat} {t : State} (h : step s = .next t) (hr : t.out.res = none) :
    awaitResult (n + 1) s = awaitResult n t := by simp [awaitResult, h, hr]

/-- Stepping on until the result: the event that delivers it. -/
theorem awaitResult_result {n : Nat} {t : State} {r : Result} (h : step s = .next t) (hr : t.out.res = some r) :
    awaitResult (n + 1) s = HostRun.ofResult r t := by
  cases r <;> simp [awaitResult, h, hr, HostRun.ofResult]

theorem idle_drive (c : Command) (hi : Idle s) :
    step { s with moves := .drive (some c) :: s.moves } = .next { s with cmd := some c, out := {} } := by
  obtain ⟨hb, hc, hr, hq⟩ := hi
  rw [step_move (s := { s with moves := .drive (some c) :: s.moves }) hq (.inr hc) hr rfl]
  simp [applyMove, driveCommand, hc]

/-- A transaction whose answer is settled when the frame is issued: before open, and with a double that knows it. -/
theorem hostTransact_settled (c : Command) {a : Answer} (hi : Idle s) (ht : s.tstate ≠ .closed)
    (ha : settledAnswer (requestFrame c) s = some a) :
    hostTransact c s = HostRun.ofResult a.toResult (s.afterTransaction (requestFrame c) a s.moves) := by
  have hd := idle_drive c hi
  obtain ⟨hb, hc, hr, hq⟩ := hi
  have h1 := step_issue (s := { s with cmd := some c, out := {} }) (c := c) hq hb rfl ht
  have h2 := step_complete (a := a)
    (s := (({ s with cmd := none, out := {} } : State).issue (requestFrame c))) hq rfl ha
  unfold hostTransact
  rw [awaitResult_more hd rfl, awaitResult_more h1 rfl, awaitResult_result h2 rfl]
  simp only [State.complete, State.issue, State.afterTransaction, hq, List.append_assoc, List.cons_append,
    List.nil_append]
  rfl

/-- A transaction whose answer is the environment's next choice. -/
theorem hostTransact_answered (c : Command) {a : TransportChoice} {ms : List Move} (hi : Idle s)
    (ht : s.tstate ≠ .closed) (ha : settledAnswer (requestFrame c) s = none) (hm : s.moves = .answer a :: ms) :
    hostTransact c s =
      HostRun.ofResult a.toAnswer.toResult (s.afterTransaction (requestFrame c) a.toAnswer ms) := by
  have hd := idle_drive c hi
  obtain ⟨hb, hc, hr, hq⟩ := hi
  have h1 := step_issue (s := { s with cmd := some c, out := {} }) (c := c) hq hb rfl ht
  have h2 := step_move (m := .answer a) (ms := ms)
    (s := (({ s with cmd := none, out := {} } : State).issue (requestFrame c))) hq (.inl rfl) ha hm
  have h3 := step_complete (a := a.toAnswer)
    (s := { (({ s with cmd := none, out := {} } : State).issue (requestFrame c)) with
      moves := ms, rx := some a.toAnswer, out := {} }) hq rfl rfl
  unfold hostTransact
  rw [awaitResult_more hd rfl, awaitResult_more h1 rfl, awaitResult_more h2 rfl, awaitResult_result h3 rfl]
  simp only [State.complete, State.issue, State.afterTransaction, hq, List.append_assoc, List.cons_append,
    List.nil_append]
  rfl

/-- After a whole transaction the block is idle again. -/
theorem afterTransaction_idle (tx : Frame) (a : Answer) (ms : List Move) (s : State) :
    Idle (s.afterTransaction tx a ms) := ⟨rfl, rfl, rfl, rfl⟩

end Sys2Proof.Machine
end

