-- ==== Sys2Proof/Laws/PerInstr.lean ====
section
/-! SUPPORT. Statements made per instruction: the shape of each encoding (R50, R51, R57). -/

namespace Sys2Proof.Laws.Encoding

/-- The bytes of the instruction: three or one (R50, R62), the first with the header in its top half and the board index
modulo 8 in its address field (R51, R52); adding 8 to the board index changes none of them (R162). -/
def Statement (i : Instr) : Prop :=
  (∃ op rest, encode i = op :: rest ∧ (rest.length = 0 ∨ rest.length + 1 = Config.frameLen) ∧
    op.toNat / 16 = 4 ∧ op.toNat / 2 % 8 = i.board % Config.nBoards) ∧
  encode i = encode (match i with
    | .writeRegister b r d => .writeRegister (b + 8) r d
    | .readRegister b r => .readRegister (b + 8) r
    | .opcodeW b => .opcodeW (b + 8)
    | .opcodeR b => .opcodeR (b + 8))

/-- The opcode byte by its layout, as a number. -/
theorem encodeOpcode_toNat (b : Nat) (w : Dir) :
    (encodeOpcode b w).toNat = 64 + 2 * (b % 8) + w.bit.toNat := by
  have h : ∀ (a : BitVec 3) (w : Dir), (Config.header ++ a ++ w.bit).toNat = 64 + 2 * a.toNat + w.bit.toNat := by
    intro a w
    cases w <;> revert a <;> decide
  simp [encodeOpcode, h]

/-- The opcode byte by its layout takes the board index modulo 8. -/
theorem encodeOpcode_add_eight (b : Nat) (w : Dir) : encodeOpcode (b + 8) w = encodeOpcode b w :=
  BitVec.eq_of_toNat_eq (by simp [encodeOpcode_toNat])

theorem header_and_board (b : Nat) (w : Dir) :
    (encodeOpcode b w).toNat / 16 = 4 ∧ (encodeOpcode b w).toNat / 2 % 8 = b % Config.nBoards := by
  have hw : w.bit.toNat < 2 := w.bit.isLt
  rw [encodeOpcode_toNat]
  simp only [Config.nBoards]
  omega

theorem writeRegister (b : Nat) (r d : Byte) : Statement (.writeRegister b r d) :=
  ⟨⟨_, _, rfl, .inr rfl, header_and_board b .write⟩, by simp [encode, encodeOpcode_add_eight]⟩

theorem readRegister (b : Nat) (r : Byte) : Statement (.readRegister b r) :=
  ⟨⟨_, _, rfl, .inr rfl, header_and_board b .read⟩, by simp [encode, encodeOpcode_add_eight]⟩

theorem opcodeW (b : Nat) : Statement (.opcodeW b) :=
  ⟨⟨_, _, rfl, .inl rfl, header_and_board b .write⟩, by simp [encode, encodeOpcode_add_eight]⟩

theorem opcodeR (b : Nat) : Statement (.opcodeR b) :=
  ⟨⟨_, _, rfl, .inl rfl, header_and_board b .read⟩, by simp [encode, encodeOpcode_add_eight]⟩

end Sys2Proof.Laws.Encoding
end

