-- ==== Sys2Proof/Laws/Run.lean ====
section
/-! SUPPORT. Running several events: one event at a time, and agreement with the host's own run. -/

namespace Sys2Proof.Machine

@[simp] theorem runSteps_zero (s : State) : runSteps 0 s = .next s := rfl

theorem runSteps_next {s t : State} (k : Nat) (h : step s = .next t) : runSteps (k + 1) s = runSteps k t := by
  simp [runSteps, h]

/-- A run that goes on took a first event. -/
theorem runSteps_succ {s u : State} {k : Nat} (h : runSteps (k + 1) s = .next u) :
    ∃ t, step s = .next t ∧ runSteps k t = .next u := by
  unfold runSteps at h
  cases hs : step s with
  | next t => rw [hs] at h; exact ⟨t, rfl, h⟩
  | fault f => rw [hs] at h; cases h
  | refused r => rw [hs] at h; cases h

/-- The host's run, one event at a time. -/
theorem core_run_succ (M : Host.Core) (k : Nat) (s : M.State) :
    M.run (k + 1) s = match M.step s with
      | .next t => M.run k t
      | .fault f => .fault f
      | .refused r => .refused r := rfl

/-- The host's run is the same. -/
theorem core_run_eq (k : Nat) (s : State) : Host.Core.run core k s = runSteps k s := by
  induction k generalizing s with
  | zero => rfl
  | succ k ih =>
    have h := core_run_succ core k s
    cases hs : step s with
    | next t =>
      rw [show core.step s = .next t from hs] at h
      exact h.trans ((ih t).trans (runSteps_next k hs).symm)
    | fault f =>
      rw [show core.step s = .fault f from hs] at h
      exact h.trans (by simp only [runSteps, hs]; rfl)
    | refused r =>
      rw [show core.step s = .refused r from hs] at h
      exact h.trans (by simp only [runSteps, hs]; rfl)

end Sys2Proof.Machine
end

