-- ==== Sys2Proof/Tests/Slice0.lean ====
section
/-! SUPPORT. Tests of one step or one function each, with values from spec/95_test_vectors.md (the section is named in the
docstring) or worked by hand from the rule named, and the witnesses that the hypotheses of the statements can be met. -/

namespace Sys2Proof.Tests

open Sys2Proof Sys2Proof.Machine

/-! ### Small states -/

/-- The state an outcome goes on with. -/
def nextOf : Host.Outcome State Fault Refusal → Option State
  | .next s => some s
  | .fault _ => none
  | .refused _ => none

def faultOf : Host.Outcome State Fault Refusal → Option Fault
  | .next _ => none
  | .fault f => some f
  | .refused _ => none

def refusalOf : Host.Outcome State Fault Refusal → Option Refusal
  | .next _ => none
  | .fault _ => none
  | .refused r => some r

/-- The instruction bytes decode to, if any. -/
def decoded (bs : List Byte) : Option Instr :=
  match decode bs with
  | .ok i => some i
  | .error _ => none

/-- Why bytes do not decode, if so. -/
def rejected (bs : List Byte) : Option DecodeError :=
  match decode bs with
  | .ok _ => none
  | .error e => some e

def opened : State := { State.reset with tstate := .opened }
def closed : State := { State.reset with tstate := .closed }
/-- Open, with this device behind the Transport. -/
def withDevice (d : Double) : State := { opened with double := some d }
/-- Open and busy with the frame `40 12 FF`, the Transport silent. -/
def busyState : State :=
  { opened with busy := true, inflight := some ⟨0x40, 0x12, 0xFF⟩, trace := [.issue ⟨0x40, 0x12, 0xFF⟩],
                bus := [⟨0x40, 0x12, 0xFF⟩] }
/-- Never opened, with that frame in flight and its answer settled. -/
def busyUnopened : State :=
  { State.reset with busy := true, inflight := some ⟨0x40, 0x12, 0xFF⟩, trace := [.issue ⟨0x40, 0x12, 0xFF⟩],
                     rx := some (.err .initError) }
/-- Register 0x12 of board 0 holds 0xA5. -/
def device : Double := ⟨[(0x12, 0xA5)], false, none⟩
/-- The same, cross-wired. -/
def crossed : Double := { device with cross := true }

/-! ### WellFormed: each check refuses an ill-formed term -/

theorem test_wellFormed_write_board : (Instr.writeRegister 8 0x12 0x00).wellFormed = false := by decide
theorem test_wellFormed_read_board : (Instr.readRegister 8 0x12).wellFormed = false := by decide
theorem test_wellFormed_opcodeW_board : (Instr.opcodeW 8).wellFormed = false := by decide
theorem test_wellFormed_opcodeR_board : (Instr.opcodeR 16).wellFormed = false := by decide
theorem test_wellFormed_accepts : (Instr.writeRegister 7 0xFF 0xFF).wellFormed = true := by decide
theorem test_onPort_command : (Command.mk .read 8 0x13 0x00).onPort = false := by decide
theorem test_onPort_call : (OpcodeCall.mk 8 .write).onPort = false := by decide

/-! ### Decoding words written out from R57, and their rejections (95_test_vectors.md 3.4) -/

theorem test_decode_write : decoded [0b01000110, 0b00010010, 0b10101010] = some (.writeRegister 3 0x12 0xAA) := by decide
theorem test_decode_read : decoded [0b01001111, 0b00001101, 0b00000000] = some (.readRegister 7 0x0D) := by decide
theorem test_decode_opcodeW : decoded [0b01001000] = some (.opcodeW 4) := by decide
theorem test_decode_opcodeR : decoded [0b01000011] = some (.opcodeR 1) := by decide
theorem test_decode_table_number : decodeTableWord 24 0x4B1300 = some (.readRegister 5 0x13) := by decide
theorem test_decode_other_header : rejected [0x50, 0x12, 0xAA] = some .notThisBlock := by decide
theorem test_decode_header_bit3 : rejected [0xC1, 0x13, 0x00] = some .notThisBlock := by decide
theorem test_decode_opbyte_header : rejected [0x3F] = some .notThisBlock := by decide
theorem test_decode_read_with_data : rejected [0x4B, 0x13, 0x77] = some .readFillNotZero := by decide
theorem test_decode_two_bytes : rejected [0x40, 0x12] = some (.badLength 2) := by decide
theorem test_encode_write : encode (.writeRegister 7 0x0D 0xFF) = [0x4E, 0x0D, 0xFF] := by decide

/-! ### Pure functions (95_test_vectors.md 3.1 to 3.4) -/

theorem test_opcode_4_write : opcode 4 .write = 0x48 := by decide
theorem test_opcode_7_read : opcode 7 .read = 0x4F := by decide
theorem test_opcode_15_write : opcode 15 .write = 0x4E := by decide
theorem test_opcode_16_write : opcode 16 .write = 0x40 := by decide
theorem test_frame_not_validated : (frame 0x00 0xFF 0x55).toBits = 0x00FF55#24 := by decide
theorem test_result_third_byte : result ⟨0x12, 0x34, 0x56⟩ = 0x56 := by decide
theorem test_unframe_read_with_data : unframe ⟨0x4B, 0x13, 0x77⟩ = some ⟨5, .read, 0x13, 0x77⟩ := by decide
theorem test_unframe_not_this_block : unframe ⟨0x00, 0x12, 0xAA⟩ = none := by decide

/-! ### One step of each instruction -/

/-- 95_test_vectors.md 3.6. -/
theorem test_write_frame : (nextOf (exec (.writeRegister 3 0x12 0xAA) opened)).map (·.txFrame) = some (some 0x4612AA) := by
  decide

/-- The double of section 2: the byte is stored at board 3, register 0x12, and echoed. -/
theorem test_write_device : (nextOf (exec (.writeRegister 3 0x12 0xAA) (withDevice device))).map (fun t => (t.double, t.rx)) =
    some (some ⟨[(0x12, 0xA5), (0x312, 0xAA)], false, none⟩, some (.ok ⟨0x00, 0x00, 0xAA⟩)) := by decide

/-- 95_test_vectors.md 3.7. -/
theorem test_read_frame : (nextOf (exec (.readRegister 1 0x13) opened)).map (fun t => (t.busy, t.txFrame)) =
    some (true, some 0x431300) := by decide

/-- 95_test_vectors.md 3.5 and section 2. -/
theorem test_read_device : (nextOf (exec (.readRegister 0 0x12) (withDevice device))).map (·.rx) =
    some (some (.ok ⟨0x00, 0x00, 0xA5⟩)) := by decide

/-- 95_test_vectors.md 3.1. -/
theorem test_opcodeW : (nextOf (exec (.opcodeW 4) busyState)).map (·.out.ret) = some (some (.opcode 0x48)) := by decide
theorem test_opcodeR : (nextOf (exec (.opcodeR 12) .reset)).map (·.out.ret) = some (some (.opcode 0x49)) := by decide

/-! ### The step's other events (95_test_vectors.md 3.7, 3.9, section 2) -/

theorem test_step_first_after_reset :
    (nextOf (step (State.reset.withFetchWord 24 0x411300))).map (fun t => (t.trace, t.rx, t.bus)) =
      some ([.issue ⟨0x41, 0x13, 0x00⟩], some (.err .initError), []) := by decide
theorem test_cmd_data_of_a_read : (nextOf (step { opened with cmd := some ⟨.read, 0, 0x13, 0x5A⟩ })).map (·.txFrame) =
    some (some 0x411300) := by decide
theorem test_complete_ok : (nextOf (step { busyState with rx := some (.ok ⟨0x00, 0x00, 0xFB⟩) })).map
    (fun t => (t.busy, t.resErr, t.resData)) = some (false, some false, some 0xFB) := by decide
theorem test_complete_err : (nextOf (step { busyState with rx := some (.err (.io 5)) })).map
    (fun t => (t.busy, t.resErr, t.resCode)) = some (false, some true, some (.io 5)) := by decide
theorem test_spurious_response : (nextOf (step { opened with rx := some (.ok ⟨0x00, 0x00, 0x77⟩) })).map
    (fun t => (t.busy, t.resValid, t.trace)) = some (false, false, []) := by decide
theorem test_held_command : (nextOf (step { busyState with cmd := some ⟨.write, 0, 0x12, 0x01⟩ })).map
    (fun t => (t.cmdReady, t.cmd, t.txValid)) = some (false, some ⟨.write, 0, 0x12, 0x01⟩, false) := by decide
theorem test_use_after_close : faultOf (step { closed with cmd := some ⟨.read, 0, 0x13, 0x00⟩ }) = some .useAfterClose := by
  decide
theorem test_second_close : refusalOf (step { closed with moves := [.closeTransport] }) = some .secondClose := by decide
theorem test_operands_changed :
    refusalOf (step { busyState with cmd := some ⟨.read, 0, 0x13, 0x00⟩, moves := [.drive none] }) =
      some .operandsChangedWhileHeld := by decide
theorem test_double_cross : (({ device with cross := true } : Double).transfer ⟨0x41, 0x13, 0x00⟩).2 =
    some (.ok ⟨0x00, 0x00, 0x5A⟩) := by decide
theorem test_double_injected : ({ device with fail := some ⟨5, false⟩ } : Double).transfer ⟨0x40, 0x12, 0x01⟩ =
    (device, some (.err (.io 5))) := by decide

/-! ### Host routines over their scripts (95_test_vectors.md 3.8, 3.9) -/

theorem test_pinBitMask : (pinBitMask 7).toOption = some 0x80 := by decide
theorem test_pinBitMask_range : (pinBitMask (-1)).toOption = none := by decide
theorem test_pinNumberFromMask : [0x01, 0x80, 0x28, 0x00, 0x100].map pinNumberFromMask = [0, 7, 3, 0, 0] := by decide
theorem test_digitalWrite_frames : ((digitalWrite 3 1 0).script [.ok ⟨0, 0, 0xA5⟩, .ok ⟨0, 0, 0xAD⟩]).1 =
    [.issue ⟨0x41, 0x12, 0x00⟩, .complete (.ok 0xA5), .issue ⟨0x40, 0x12, 0xAD⟩, .complete (.ok 0xAD)] := by decide
theorem test_digitalWrite_truthy : ((digitalWrite 7 5 4).script [.ok ⟨0, 0, 0x00⟩]).1 =
    [.issue ⟨0x49, 0x12, 0x00⟩, .complete (.ok 0x00), .issue ⟨0x48, 0x12, 0x80⟩] := by decide
theorem test_digitalWrite_read_fails : ((digitalWrite 3 1 0).script [.ioError 5]).1 =
    [.issue ⟨0x41, 0x12, 0x00⟩, .complete (.err (.io 5))] := by decide
theorem test_digitalRead_active_low : ((digitalRead 2 1).script [.ok ⟨0, 0, 0xFB⟩]).2.1.map (·.toOption) =
    some (some 1) := by decide
theorem test_digitalReadPullup : ((digitalReadPullup 7 0).script [.ok ⟨0, 0, 0x80⟩]).2.1.map (·.toOption) =
    some (some 1) := by decide
theorem test_readInput_inverts : ((readInput 1).script [.ok ⟨0, 0, 0xFB⟩]).2.1.map (·.toOption) = some (some 0x04) := by
  decide
theorem test_bringUp_length : (bringUpCommands Config.bringUpValues).length = 48 := by decide
theorem test_bringUp_frames : (((bringUpCommands Config.bringUpValues).drop 35).take 6).map requestFrame =
    [⟨0x4E, 0x0A, 0x08⟩, ⟨0x4E, 0x12, 0x00⟩, ⟨0x4E, 0x00, 0x00⟩, ⟨0x4E, 0x01, 0xFF⟩, ⟨0x4E, 0x0D, 0xFF⟩,
     ⟨0x40, 0x12, 0x00⟩] := by decide
theorem test_led_range : mkView .led 8 = .error .ledRange := rfl
theorem test_switch_range : mkView .switch (-1) = .error .switchRange := rfl

/-! ### Witnesses: states and operands that meet the hypotheses of the statements -/

theorem witness_OpcodeByteValue : (7 < 8) ∧ (0 < 8) ∧ opcode 7 .read = 0x4F ∧ opcode 0 .write = 0x40 := by decide
theorem witness_UnframeInvertsFrame : unframe ⟨0x4E, 0xFF, 0xFF⟩ = some ⟨7, .write, 0xFF, 0xFF⟩ := by decide
theorem witness_DecodeEncodeRoundTrip : (Instr.readRegister 7 0xFF).wellFormed = true := by decide
theorem witness_DecodedBytesAreTheEncoding : decode [0x40, 0x00, 0x00] = .ok (.writeRegister 0 0x00 0x00) := rfl
theorem witness_StepRunsTheTableWord :
    decodeTableWord 24 0x4EFFFF = some (.writeRegister 7 0xFF 0xFF) ∧
    decodeTableWord 24 0x410000 = some (.readRegister 0 0x00) ∧
    decodeTableWord 8 0x40 = some (.opcodeW 0) ∧ decodeTableWord 8 0x4F = some (.opcodeR 7) := by decide
/-- An idle block with a command on its port, a pending call, and operands the port can carry. -/
theorem witness_StepRunsTheRequest :
    (∃ s : State, s.codec = none ∧ s.busy = false ∧ s.cmd = some ⟨.read, 7, 0xFF, 0x5A⟩) ∧
    (∃ s : State, s.codec = some ⟨7, .write⟩ ∧ s.busy = true) ∧
    (Command.mk .read 7 0xFF 0x5A).onPort = true ∧ (OpcodeCall.mk 7 .write).onPort = true :=
  ⟨⟨{ opened with cmd := some ⟨.read, 7, 0xFF, 0x5A⟩ }, by decide⟩, ⟨{ busyState with codec := some ⟨7, .write⟩ }, by decide⟩,
    by decide⟩
theorem witness_TransactionIssuesWhenOpen : opened.busy = false ∧ opened.tstate = .opened ∧ opened.double = none := by
  decide
theorem witness_TransactionIssuesBeforeOpen : State.reset.busy = false ∧ State.reset.tstate = .neverOpened := by decide
/-- Second clause: two different commands with one frame, board 0 and board 8. -/
theorem witness_IssueEffect :
    opened.codec = none ∧ opened.busy = false ∧ opened.tstate ≠ .closed ∧
    (Command.mk .read 8 0x13 0x01) ≠ ⟨.read, 0, 0x13, 0x00⟩ ∧
    frame (opcode 8 .read) 0x13 0x00 = frame (opcode 0 .read) 0x13 0x00 := by decide
theorem witness_DataFieldOfTheFrame : opened.codec = none ∧ opened.busy = false := by decide
theorem witness_IssuedFramesAreProducible :
    ∃ t, step { opened with cmd := some ⟨.write, 7, 0xFF, 0xFF⟩ } = .next t ∧ t.out.tx = some ⟨0x4E, 0xFF, 0xFF⟩ :=
  ⟨_, rfl, by decide⟩
theorem witness_BoardIndexAliases : State.reset.busy = false := by decide
theorem witness_CompleteDeliversTheAnswer :
    (∃ s : State, s.codec = none ∧ s.busy = true ∧ s.rx = some (.ok ⟨0xFF, 0x37, 0xA5⟩)) ∧
    (∃ s : State, s.codec = none ∧ s.busy = true ∧ s.rx = some (.err .initError)) :=
  ⟨⟨{ busyState with rx := some (.ok ⟨0xFF, 0x37, 0xA5⟩) }, by decide⟩, ⟨busyUnopened, by decide⟩⟩
theorem witness_IssueThenCompleteIsTransaction :
    ∃ s : State, s.codec = none ∧ s.busy = false ∧ s.cmd = some ⟨.read, 1, 0x13, 0x00⟩ ∧ s.tstate ≠ .closed :=
  ⟨{ opened with cmd := some ⟨.read, 1, 0x13, 0x00⟩ }, by decide⟩
theorem witness_WholeTransactionOverOpenTransport :
    ∃ s : State, s.codec = none ∧ s.busy = false ∧ s.cmd = some ⟨.read, 1, 0x13, 0x00⟩ ∧ s.tstate = .opened ∧
      s.double = none ∧ s.moves = .answer (.ioError 5) :: [] :=
  ⟨{ opened with cmd := some ⟨.read, 1, 0x13, 0x00⟩, moves := [.answer (.ioError 5)] }, by decide⟩
theorem witness_InitErrorBeforeOpen :
    (∃ s : State, s.codec = none ∧ s.busy = false ∧ s.cmd = some ⟨.write, 0, 0x12, 0x01⟩ ∧ s.tstate = .neverOpened) ∧
    Idle State.reset :=
  ⟨⟨{ State.reset with cmd := some ⟨.write, 0, 0x12, 0x01⟩ }, by decide⟩, by decide⟩
theorem witness_SpuriousResponseIgnored :
    (∃ s : State, s.codec = none ∧ s.busy = false ∧ s.cmd = none ∧ s.rx = some (.err (.io 0))) ∧
    (∃ s : State, s.codec = none ∧ s.busy = false ∧ s.cmd = some ⟨.read, 0, 0x13, 0x00⟩) :=
  ⟨⟨{ opened with rx := some (.err (.io 0)) }, by decide⟩, ⟨{ opened with cmd := some ⟨.read, 0, 0x13, 0x00⟩ }, by decide⟩⟩
theorem witness_ResponseHeadIsIgnored : busyState.busy = true ∧ busyState.codec = none := by decide
theorem witness_ErrorLeavesTheBlockAsSuccessDoes : busyUnopened.codec = none ∧ busyUnopened.busy = true := by decide
/-- Held through the event that delivers the result, and through one that does nothing. -/
theorem witness_CommandIsHeldWhileBusy :
    (∃ t, step { busyState with cmd := some ⟨.write, 0, 0x12, 0x00⟩, rx := some (.ok ⟨0, 0, 0xFF⟩) } = .next t ∧
      t.busy = false) ∧
    (∃ t, step { busyState with cmd := some ⟨.write, 0, 0x12, 0x00⟩ } = .next t ∧ t.busy = true) :=
  ⟨⟨_, rfl, by decide⟩, ⟨_, rfl, by decide⟩⟩
theorem witness_TransactionWaitsWhileBusy :
    (busyState.busy = true ∧ busyState.cmd = none) ∧
    (∃ s : State, s.busy = true ∧ s.cmd = some ⟨.write, 7, 0xFF, 0xFF⟩) ∧
    (∃ s : State, s.busy = true ∧ s.cmd = some ⟨.read, 7, 0xFF, 0x00⟩) ∧
    (Command.mk .write 0 0x12 0x00) ≠ ⟨.write, 0, 0x12, 0x01⟩ ∧ (Command.mk .read 0 0x12 0x01) ≠ ⟨.read, 0, 0x12, 0x00⟩ :=
  ⟨by decide, ⟨{ busyState with cmd := some ⟨.write, 7, 0xFF, 0xFF⟩ }, by decide⟩,
    ⟨{ busyState with cmd := some ⟨.read, 7, 0xFF, 0x00⟩ }, by decide⟩, by decide⟩
/-- The state of program P6, and a first event of its run. -/
theorem witness_UnansweredFrameHangs :
    Unanswered busyState ∧ busyState.moves = [] ∧ ∃ t, runSteps 1 busyState = .next t :=
  ⟨by decide, by decide, ⟨_, rfl⟩⟩
theorem witness_AnsweredFrameCompletes :
    ∃ s : State, s.codec = none ∧ s.busy = true ∧ s.rx = none ∧ s.moves = .answer (.ok ⟨0, 0, 0xFF⟩) :: [] :=
  ⟨{ busyState with moves := [.answer (.ok ⟨0, 0, 0xFF⟩)] }, by decide⟩
theorem witness_UseAfterCloseFaults :
    (closed.busy = false ∧ closed.tstate = .closed) ∧
    (∃ s : State, s.codec = none ∧ s.busy = false ∧ s.cmd = some ⟨.read, 0, 0x13, 0x00⟩ ∧ s.tstate = .closed) ∧
    (∃ f, step { closed with cmd := some ⟨.write, 7, 0xFF, 0xFF⟩ } = .fault f) :=
  ⟨by decide, ⟨{ closed with cmd := some ⟨.read, 0, 0x13, 0x00⟩ }, by decide⟩, ⟨_, rfl⟩⟩
/-- Idle in each lifecycle state, and with a transaction in flight that has no answer yet. -/
theorem witness_LifecycleMoves : Idle State.reset ∧ State.reset.tstate = .neverOpened ∧ Idle opened ∧
    opened.tstate = .opened ∧ Idle closed ∧ closed.tstate = .closed ∧
    busyState.codec = none ∧ busyState.rx = none ∧ busyState.busy = true ∧ busyState.tstate = .opened := by decide
theorem witness_OnlyTheHostMovesTheLifecycle :
    (∃ t, exec (.readRegister 0 0x13) opened = .next t) ∧ (∃ t, step { opened with moves := [.closeTransport] } = .next t) :=
  ⟨⟨_, rfl⟩, ⟨_, rfl⟩⟩
theorem witness_PortSignals :
    (State.reset.cmd = none ∧ State.reset.out.tx = none ∧ State.reset.rx = none ∧ State.reset.out.res = none) ∧
    (∃ s : State, s.out.tx = some ⟨0x43, 0x13, 0x00⟩ ∧ s.cmd = some ⟨.read, 7, 0xFF, 0x00⟩ ∧
      s.rx = some (.ok ⟨0x00, 0x00, 0xFB⟩)) ∧
    (∃ s : State, s.rx = some (.err .initError) ∧ s.out.res = some (.ok 0xFF)) ∧
    (∃ s : State, s.out.res = some (.err (.io 0))) :=
  ⟨by decide,
    ⟨{ opened with out := { tx := some ⟨0x43, 0x13, 0x00⟩ }, cmd := some ⟨.read, 7, 0xFF, 0x00⟩,
                   rx := some (.ok ⟨0x00, 0x00, 0xFB⟩) }, by decide⟩,
    ⟨{ busyUnopened with out := { res := some (.ok 0xFF) } }, by decide⟩,
    ⟨{ opened with out := { res := some (.err (.io 0)) } }, rfl⟩⟩
/-- All three kinds of event occur. -/
theorem witness_OneEventAtATime :
    (∃ t, step opened = .next t ∧ t.trace = []) ∧
    (∃ t, step { opened with cmd := some ⟨.write, 0, 0x12, 0xFF⟩ } = .next t ∧ t.busy = true) ∧
    (∃ t, step busyUnopened = .next t ∧ t.busy = false) :=
  ⟨⟨_, rfl, by decide⟩, ⟨_, rfl, by decide⟩, ⟨_, rfl, by decide⟩⟩
theorem witness_BusChangesOnlyAtIssue :
    (∃ t, step opened = .next t ∧ t.bus = []) ∧
    (∃ t, step { opened with cmd := some ⟨.write, 0, 0x12, 0xFF⟩ } = .next t ∧ t.bus = [⟨0x40, 0x12, 0xFF⟩]) ∧
    (∃ t, step { State.reset with cmd := some ⟨.write, 0, 0x12, 0xFF⟩ } = .next t ∧ t.bus = []) :=
  ⟨⟨_, rfl, by decide⟩, ⟨_, rfl, by decide⟩, ⟨_, rfl, by decide⟩⟩
/-- A busy state that has the invariant, and a step from it. -/
theorem witness_InvariantKeptByEveryStep : Inv busyState ∧ ∃ t, step busyState = .next t := by
  refine ⟨⟨by decide, by decide, ?_, ?_, by decide, by decide, ?_⟩, ⟨_, rfl⟩⟩
  · intro tx h
    simp only [busyState, List.mem_singleton, Event.issue.injEq] at h
    exact ⟨⟨0, .write, 0x12, 0xFF⟩, by rw [h]; decide, by decide⟩
  · intro tx h
    simpa [busyState] using h
  · intro d h
    cases h
/-- The end of a run of one transaction, not the state after reset. -/
theorem witness_FinalRunIsAllAnswered :
    ∃ s : State, Inv s ∧ Final s ∧ s.trace = [.issue ⟨0x41, 0x13, 0x00⟩, .complete (.err .initError)] := by
  refine ⟨{ State.reset with trace := [.issue ⟨0x41, 0x13, 0x00⟩, .complete (.err .initError)] },
    ⟨by decide, by decide, ?_, ?_, by decide, by decide, ?_⟩, by decide, rfl⟩
  · intro tx h
    simp only [List.mem_cons, Event.issue.injEq, reduceCtorEq, List.not_mem_nil, or_false] at h
    exact ⟨⟨0, .read, 0x13, 0x00⟩, by rw [h]; decide, by decide⟩
  · intro tx h
    cases h
  · intro d h
    cases h
theorem witness_WriteStoresOneRegister :
    (withDevice device).busy = false ∧ (withDevice device).tstate = .opened ∧ (withDevice device).double = some device ∧
      device.fail = none ∧ device.cross = false ∧ regAddr 7 0xFF + 1 = Memory.size ∧ 0x13 ≠ regAddr 0 0x12 ∧
      (0x12 : Byte) ≠ 0x13 ∧ crossed.cross = true ∧ (withDevice crossed).double = some crossed := by decide
theorem witness_WriteThenReadBack :
    Idle (withDevice device) ∧ (withDevice device).tstate = .opened ∧ (withDevice device).double = some device ∧
      device.fail = none ∧ device.cross = false := by decide
theorem witness_FailedWriteOldOrNew :
    Idle (withDevice { device with fail := some ⟨5, true⟩ }) ∧
    (withDevice { device with fail := some ⟨5, true⟩ }).tstate = .opened ∧
    (withDevice { device with fail := some ⟨5, true⟩ }).double = some ⟨[(0x12, 0xA5)], false, some ⟨5, true⟩⟩ := by decide
/-- One routine whose answers suffice and one whose answers run out. -/
theorem witness_SequentialHostFollowsTheScript :
    (readOutput 0).onlyTransacts ∧ Idle opened ∧ opened.tstate = .opened ∧ opened.double = none ∧
    ((readOutput 0).script [.ok ⟨0, 0, 0xA5⟩]).2.1.isSome = true ∧ ((readOutput 0).script []).2.1.isSome = false :=
  ⟨fun _ => trivial, by decide⟩
theorem witness_MaskHelpers :
    ((0 : Int) ≤ 7 ∧ (7 : Int) ≤ 7) ∧ ((7 : Int) < 8) ∧ ((-1 : Int) < 0) ∧
    (Nat.testBit 0x80 7 = true ∧ ∀ j < 7, Nat.testBit 0x80 j = false) ∧ (∀ i < 8, Nat.testBit 0x100 i = false) := by decide
theorem witness_WholePortRoutines :
    ∃ s : State, Idle s ∧ s.tstate = .opened ∧ s.double = none ∧ s.moves = .answer (.ok ⟨0, 0, 0xFB⟩) :: [] :=
  ⟨{ opened with moves := [.answer (.ok ⟨0, 0, 0xFB⟩)] }, by decide⟩
/-- The three clauses: a pin out of range, a read that succeeds, a read that fails. -/
theorem witness_PinWriteIsReadModifyWrite :
    ((7 : Int) < 8 ∧ Idle opened) ∧
    (∃ s : State, Idle s ∧ s.tstate = .opened ∧ s.double = none ∧
      s.moves = .answer (.ok ⟨0, 0, 0xA5⟩) :: .answer (.ioError 5) :: []) ∧
    (∃ s : State, Idle s ∧ s.tstate = .opened ∧ s.double = none ∧ s.moves = .answer (.ioError 5) :: []) :=
  ⟨by decide, ⟨{ opened with moves := [.answer (.ok ⟨0, 0, 0xA5⟩), .answer (.ioError 5)] }, by decide⟩,
    ⟨{ opened with moves := [.answer (.ioError 5)] }, by decide⟩⟩
theorem witness_PinReadNormalises :
    ((-1 : Int) < 0 ∧ (7 : Int) ≤ 7) ∧
    (∃ s : State, Idle s ∧ s.tstate = .opened ∧ s.double = none ∧ s.moves = .answer (.ok ⟨0, 0, 0x80⟩) :: []) :=
  ⟨by decide, ⟨{ opened with moves := [.answer (.ok ⟨0, 0, 0x80⟩)] }, by decide⟩⟩
theorem witness_BringUpIssuesTheFixedFrames :
    ∃ (s : State) (rxs : List Frame), Idle s ∧ s.tstate = .neverOpened ∧ s.double = none ∧ rxs.length = 48 ∧
      s.moves = rxs.map fun rx => .answer (.ok rx) :=
  ⟨{ State.reset with moves := (List.replicate 48 ⟨0, 0, 0⟩).map fun rx => .answer (.ok rx) },
    List.replicate 48 ⟨0, 0, 0⟩, by decide, by decide, by decide, by simp, rfl⟩
theorem witness_DeinitThenAnyTransactionFaults : Idle opened ∧ opened.tstate = .opened := by decide
theorem witness_TransportErrorStopsTheSequence :
    ∃ s : State, Idle s ∧ s.tstate = .opened ∧ s.double = none ∧
      s.moves = [(⟨0, 0, 0⟩ : Frame)].map (fun rx => .answer (.ok rx)) ++ .answer (.ioError 5) :: [] :=
  ⟨{ opened with moves := [.answer (.ok ⟨0, 0, 0⟩), .answer (.ioError 5)] }, by decide⟩
theorem witness_LostUpdateIsAdmitted :
    Idle (withDevice device) ∧ (withDevice device).tstate = .opened ∧ (withDevice device).double = some device ∧
      device.fail = none ∧ device.mem.read (regAddr (BitVec.ofNat 3 0) Config.portA) = some 0xA5 ∧ 0 < 8 ∧ 7 < 8 := by
  decide
theorem witness_ViewObjectContract :
    ((7 : Int) < 8 ∧ (1 : Int) < 2 ∧ (3 : Int) < 4 ∧ (-1 : Int) < 0) ∧ (∃ v, mkView .switch 3 2 = .ok v) ∧
    (View.mk .led 0 0).kind = .led ∧ (View.mk .relay 0 0).kind = .relay ∧ (View.mk .switch 0 0).kind = .switch :=
  ⟨by decide, ⟨_, rfl⟩, rfl, rfl, rfl⟩
theorem witness_CrossWiredPinReadsBack :
    Idle (withDevice crossed) ∧ (withDevice crossed).tstate = .opened ∧ (withDevice crossed).double = some crossed ∧
      crossed.fail = none ∧ crossed.cross = true ∧ crossed.mem.read (regAddr (BitVec.ofNat 3 0) 0x12) = some 0xA5 ∧
      7 < 8 := by decide

end Sys2Proof.Tests
end

section
/-! SUPPORT. The valid and ready signals of the block's ports from the fields they are read from (R15, R16, R18), and the
state after reset (R22). -/

namespace Sys2Proof.Machine

theorem State.cmdReady_of_idle {s : State} (h : s.busy = false) : s.cmdReady = true := by simp [State.cmdReady, h]

theorem State.txValid_of_tx_none {s : State} (h : s.out.tx = none) : s.txValid = false := by simp [State.txValid, h]

theorem State.resValid_of_res_none {s : State} (h : s.out.res = none) : s.resValid = false := by
  simp [State.resValid, h]

/-- Settles O33: the block is reset to idle with no output asserted, and `cmd_ready` follows from `busy` = 0, as R22 says. -/
theorem resetState : Obligations.ResetState := by
  unfold Obligations.ResetState
  have idle : State.reset.busy = false := rfl
  have silent : State.reset.out = {} := rfl
  exact ⟨idle, State.txValid_of_tx_none (by rw [silent]), State.resValid_of_res_none (by rw [silent]),
    State.cmdReady_of_idle idle, rfl, rfl⟩

end Sys2Proof.Machine
end

section
/-! SUPPORT. The decoder by the rows of the opcode table (R57): which words each mask and match admits. -/

namespace Sys2Proof

/-! ### The opcode byte -/

/-- What the mask 0xF1 keeps of an opcode byte of each direction: the match of its OPBYTE row (R57). -/
@[simp] def opcodeMatch : Dir → Byte
  | .write => 0x40#8
  | .read => 0x41#8

/-- The header and the direction bit are what the mask 0xF1 keeps. -/
theorem header_and_dir_iff (op : Byte) (w : Dir) :
    (op.extractLsb' 4 4 = Config.header ∧ Dir.ofBit (op.extractLsb' 0 1) = w) ↔ op &&& 0xF1#8 = opcodeMatch w := by
  cases w <;> revert op <;> decide

theorem opcodeFields_eq_some_iff (op : Byte) (a : BitVec 3) (w : Dir) :
    opcodeFields op = some (a, w) ↔ op &&& 0xF1#8 = opcodeMatch w ∧ op.extractLsb' 1 3 = a := by
  rw [← header_and_dir_iff]
  unfold opcodeFields
  split_ifs with h
  · simp [h, and_comm]
  · simp [h]

/-- The opcode bytes of one direction are those that match its row. -/
theorem exists_opcodeFields_iff (op : Byte) (w : Dir) :
    (∃ a, opcodeFields op = some (a, w)) ↔ op &&& 0xF1#8 = opcodeMatch w := by
  simp [opcodeFields_eq_some_iff]

/-- The opcode bytes are those with the header in the upper half. -/
theorem opcodeFields_isSome_iff (op : Byte) : (opcodeFields op).isSome = true ↔ op.toNat / 16 = 4 := by
  have header : op.extractLsb' 4 4 = Config.header ↔ op.toNat / 16 = 4 := by revert op; decide
  rw [← header]
  unfold opcodeFields
  split_ifs with h <;> simp [h]

/-- The upper half is the header exactly for the sixteen values of the table of R57. -/
theorem upper_half_iff_sixteen_values (n : Nat) :
    n / 16 = 4 ↔ ∃ a w : Nat, a < 8 ∧ w < 2 ∧ n = 0x40 + 2 * a + w := by
  constructor
  · intro h
    exact ⟨n / 2 % 8, n % 2, by omega, by omega, by omega⟩
  · rintro ⟨a, w, ha, hw, rfl⟩
    omega

/-! ### Masks over a frame's 24 bits (R50) -/

/-- A 24-bit number is the number of its three bytes (R50). -/
theorem Frame.toBits_ofBits (v : BitVec 24) : (Frame.ofBits v).toBits = v := by
  have high : v.extractLsb' 16 8 ++ v.extractLsb' 8 8 = v.extractLsb' 8 16 :=
    BitVec.extractLsb'_append_extractLsb'_eq_extractLsb' rfl
  have whole : v.extractLsb' 8 16 ++ v.extractLsb' 0 8 = v.extractLsb' 0 24 :=
    BitVec.extractLsb'_append_extractLsb'_eq_extractLsb' rfl
  rw [Frame.toBits, Frame.ofBits, high, whole, BitVec.extractLsb'_eq_self]

/-- A 24-bit word matches a row exactly when each of its three bytes matches the row's byte. -/
theorem and_toBits_iff (v : BitVec 24) (m c : Frame) :
    v &&& m.toBits = c.toBits ↔
      (Frame.ofBits v).b0 &&& m.b0 = c.b0 ∧ (Frame.ofBits v).b1 &&& m.b1 = c.b1 ∧ (Frame.ofBits v).b2 &&& m.b2 = c.b2 := by
  have inj : Function.Injective Frame.ofBits := Function.LeftInverse.injective Frame.toBits_ofBits
  have bytes : Frame.ofBits (v &&& m.toBits) = ⟨(Frame.ofBits v).b0 &&& (Frame.ofBits m.toBits).b0,
      (Frame.ofBits v).b1 &&& (Frame.ofBits m.toBits).b1, (Frame.ofBits v).b2 &&& (Frame.ofBits m.toBits).b2⟩ := by
    simp [Frame.ofBits, BitVec.extractLsb'_and]
  rw [← inj.eq_iff, bytes, Frame.ofBits_toBits, Frame.ofBits_toBits]
  cases c
  simp

/-- Byte 0 of a word belongs to the direction `w` exactly when the word matches it under 0xF10000. -/
theorem exists_opcodeFields_iff_word (v : BitVec 24) (w : Dir) :
    (∃ a, opcodeFields (Frame.ofBits v).b0 = some (a, w)) ↔ v &&& 0xF10000#24 = opcodeMatch w ++ 0x0000#16 := by
  have word := and_toBits_iff v ⟨0xF1#8, 0x00#8, 0x00#8⟩ ⟨opcodeMatch w, 0x00#8, 0x00#8⟩
  have pattern : Frame.toBits ⟨opcodeMatch w, 0x00#8, 0x00#8⟩ = opcodeMatch w ++ 0x0000#16 := by cases w <;> rfl
  rw [exists_opcodeFields_iff, ← pattern]
  exact (word.trans (by simp)).symm

/-! ### What the decoder answers, by the number of bytes -/

theorem decode_req_eq_ok_iff (op r d : Byte) (i : Instr) :
    decode [op, r, d] = .ok i ↔
      (∃ a, opcodeFields op = some (a, .write) ∧ i = .writeRegister a.toNat r d) ∨
      (∃ a, opcodeFields op = some (a, .read) ∧ d = Config.readFill ∧ i = .readRegister a.toNat r) := by
  unfold decode unframe
  rcases h : opcodeFields op with _ | ⟨a, _ | _⟩
  · simp [h]
  · simp [h, eq_comm]
  · by_cases hd : d = Config.readFill <;> simp [h, hd, eq_comm]

theorem decode_opbyte_eq_ok_iff (op : Byte) (i : Instr) :
    decode [op] = .ok i ↔
      (∃ a, opcodeFields op = some (a, .write) ∧ i = .opcodeW a.toNat) ∨
      (∃ a, opcodeFields op = some (a, .read) ∧ i = .opcodeR a.toNat) := by
  unfold decode
  rcases h : opcodeFields op with _ | ⟨a, _ | _⟩ <;> simp [h, eq_comm]

/-- UNFRAME gives the direction of byte 0, whatever the data byte is (R73). -/
theorem exists_unframe_dir_iff (f : Frame) (w : Dir) :
    (∃ u, unframe f = some u ∧ u.w = w) ↔ ∃ a, opcodeFields f.b0 = some (a, w) := by
  unfold unframe
  rcases opcodeFields f.b0 with _ | ⟨a, w'⟩ <;> simp

/-! ### The rows of the opcode table (R57) -/

theorem decodeTableWord_eq_some_iff (nbits w : Nat) (i : Instr) :
    decodeTableWord nbits w = some i ↔ decode (tableBytes nbits w) = .ok i := by
  unfold decodeTableWord
  cases decode (tableBytes nbits w) <;> simp

theorem tableBytes_req (v : BitVec 24) :
    tableBytes 24 v.toNat = [(Frame.ofBits v).b0, (Frame.ofBits v).b1, (Frame.ofBits v).b2] := by
  simp [tableBytes]

theorem tableBytes_opbyte (v : BitVec 8) : tableBytes 8 v.toNat = [v] := by
  simp [tableBytes]

theorem writeRegister_row (v : BitVec 24) :
    (∃ b r d, decodeTableWord 24 v.toNat = some (.writeRegister b r d)) ↔ v &&& 0xF10000#24 = 0x400000#24 := by
  simp [decodeTableWord_eq_some_iff, tableBytes_req, decode_req_eq_ok_iff, exists_opcodeFields_iff_word]

/-- Byte 2 of a read's word has all its bits under the mask: it must be READ_FILL. -/
theorem readRegister_row (v : BitVec 24) :
    (∃ b r, decodeTableWord 24 v.toNat = some (.readRegister b r)) ↔ v &&& 0xF100FF#24 = 0x410000#24 := by
  have word := and_toBits_iff v ⟨0xF1#8, 0x00#8, 0xFF#8⟩ ⟨0x41#8, 0x00#8, 0x00#8⟩
  have full : (Frame.ofBits v).b2 &&& 0xFF#8 = (Frame.ofBits v).b2 := BitVec.and_allOnes
  have opcodeByte := exists_opcodeFields_iff (Frame.ofBits v).b0 .read
  refine Iff.trans ?_ word.symm
  simp [decodeTableWord_eq_some_iff, tableBytes_req, decode_req_eq_ok_iff, full, opcodeByte, Config.readFill]

theorem opcodeW_row (v : BitVec 8) :
    (∃ b, decodeTableWord 8 v.toNat = some (.opcodeW b)) ↔ v &&& 0xF1#8 = 0x40#8 := by
  simp [decodeTableWord_eq_some_iff, tableBytes_opbyte, decode_opbyte_eq_ok_iff, exists_opcodeFields_iff]

theorem opcodeR_row (v : BitVec 8) :
    (∃ b, decodeTableWord 8 v.toNat = some (.opcodeR b)) ↔ v &&& 0xF1#8 = 0x41#8 := by
  simp [decodeTableWord_eq_some_iff, tableBytes_opbyte, decode_opbyte_eq_ok_iff, exists_opcodeFields_iff]

/-- Settles O7: row by row, the decoder asks of each byte what the row's mask keeps of it. -/
theorem opcodeTableMasks : Obligations.OpcodeTableMasks := by
  unfold Obligations.OpcodeTableMasks
  exact ⟨writeRegister_row, readRegister_row,
    fun v => (exists_unframe_dir_iff _ .read).trans (exists_opcodeFields_iff_word v .read),
    opcodeW_row, opcodeR_row,
    fun v => (opcodeFields_isSome_iff v).trans (upper_half_iff_sixteen_values v.toNat)⟩

end Sys2Proof
end

section
/-! SUPPORT. What the block puts in the request frame: the opcode byte, laid out as R51 says, and the data field of R55. -/

namespace Sys2Proof.Machine

/-- The layout of R51 has the value of the formula of R70. -/
theorem encodeOpcode_eq_opcode (board : Nat) (dir : Dir) : encodeOpcode board dir = opcode board dir := by
  unfold encodeOpcode opcode
  rw [shift_mask_eq]
  generalize BitVec.ofNat 3 board = a
  cases dir <;> revert a <;> decide

/-- Settles O2: the two bytes are one, and the layout is header, address bits and direction bit by its definition. -/
theorem opcodeLayoutAgreesWithFormula : Obligations.OpcodeLayoutAgreesWithFormula := by
  unfold Obligations.OpcodeLayoutAgreesWithFormula
  exact fun board dir => ⟨encodeOpcode_eq_opcode board dir, rfl⟩

/-- The step of an idle block depends on the command on its port only through the request frame (R82). -/
theorem step_eq_of_requestFrame_eq {s : State} {c c' : Command} (hq : s.codec = none) (hb : s.busy = false)
    (h : requestFrame c = requestFrame c') : step { s with cmd := some c } = step { s with cmd := some c' } := by
  rw [step_command (s := { s with cmd := some c }) hq hb rfl, step_command (s := { s with cmd := some c' }) hq hb rfl,
    exec_command c (s := { s with cmd := none }) hb, exec_command c' (s := { s with cmd := none }) hb, h]

/-- Settles O14: the frame of a read carries READ_FILL, and the step sees the frame only. -/
theorem dataFieldOfTheFrame : Obligations.DataFieldOfTheFrame := by
  unfold Obligations.DataFieldOfTheFrame
  constructor
  · intro b r d
    exact ⟨by rw [requestFrame_write], by rw [requestFrame_read]; rfl⟩
  · intro s b r d d' hq hb
    exact step_eq_of_requestFrame_eq hq hb (by rw [requestFrame_read, requestFrame_read])

end Sys2Proof.Machine
end

section
/-! SUPPORT. The pure functions of the codec (R70 to R73): the fields of the opcode byte and the two inverse laws of UNFRAME,
all from one fact, that the opcode byte is determined by its three fields. -/

namespace Sys2Proof

theorem Dir.bit_injective : Function.Injective Dir.bit := Function.LeftInverse.injective Dir.ofBit_bit

theorem Dir.ofBit_eq_iff (w : BitVec 1) (d : Dir) : Dir.ofBit w = d ↔ w = d.bit := by
  rw [← Dir.bit_injective.eq_iff, Dir.bit_ofBit]

/-- A byte is its upper half, its three address bits and its direction bit (R51). -/
theorem append_fields_eq_iff (op : Byte) (h : BitVec 4) (a : BitVec 3) (w : BitVec 1) :
    h ++ a ++ w = op ↔ op.extractLsb' 4 4 = h ∧ op.extractLsb' 1 3 = a ∧ op.extractLsb' 0 1 = w := by
  constructor
  · rintro rfl
    have above (i n : Nat) : (h ++ a ++ w).extractLsb' (i + 1) n = (h ++ a).extractLsb' i n :=
      BitVec.extractLsb'_append_eq_of_le (by omega)
    exact ⟨(above 3 4).trans BitVec.extractLsb'_append_eq_left, (above 0 3).trans BitVec.extractLsb'_append_eq_right,
      BitVec.extractLsb'_append_eq_right⟩
  · rintro ⟨rfl, rfl, rfl⟩
    have upper : op.extractLsb' 4 4 ++ op.extractLsb' 1 3 = op.extractLsb' 1 7 :=
      BitVec.extractLsb'_append_extractLsb'_eq_extractLsb' rfl
    have whole : op.extractLsb' 1 7 ++ op.extractLsb' 0 1 = op.extractLsb' 0 8 :=
      BitVec.extractLsb'_append_extractLsb'_eq_extractLsb' rfl
    rw [upper, whole, BitVec.extractLsb'_eq_self]

theorem opcodeFields_eq_none_iff (op : Byte) : opcodeFields op = none ↔ op.extractLsb' 4 4 ≠ Config.header := by
  simp [opcodeFields]

theorem unframe_eq_none_iff (f : Frame) : unframe f = none ↔ f.b0.extractLsb' 4 4 ≠ Config.header := by
  rw [← opcodeFields_eq_none_iff]
  unfold unframe
  rcases opcodeFields f.b0 with _ | ⟨a, w⟩ <;> simp

theorem unframe_eq_some_iff (f : Frame) (u : ReqFields) :
    unframe f = some u ↔ opcodeFields f.b0 = some (u.a, u.w) ∧ f.b1 = u.r ∧ f.b2 = u.d := by
  obtain ⟨a, w, r, d⟩ := u
  unfold unframe
  rcases opcodeFields f.b0 with _ | ⟨a', w'⟩ <;> simp [and_assoc]

end Sys2Proof

namespace Sys2Proof.Machine

open Laws.Encoding (encodeOpcode_toNat encodeOpcode_add_eight)

/-! ### OPCODE (R70) -/

/-- The opcode byte of a board and direction is the one byte with the header and their fields in place (R51, R70). -/
theorem opcode_eq_iff (board : Nat) (dir : Dir) (op : Byte) :
    opcode board dir = op ↔
      op.extractLsb' 4 4 = Config.header ∧ op.extractLsb' 1 3 = BitVec.ofNat 3 board ∧ op.extractLsb' 0 1 = dir.bit := by
  rw [← encodeOpcode_eq_opcode]
  exact append_fields_eq_iff op Config.header (BitVec.ofNat 3 board) dir.bit

theorem opcode_toNat (board : Nat) (dir : Dir) :
    (opcode board dir).toNat = 64 + 2 * (board % 8) + dir.bit.toNat := by
  rw [← encodeOpcode_eq_opcode, encodeOpcode_toNat]

theorem opcode_add_eight (board : Nat) (dir : Dir) : opcode (board + 8) dir = opcode board dir := by
  rw [← encodeOpcode_eq_opcode, ← encodeOpcode_eq_opcode, encodeOpcode_add_eight]

theorem opcode_range (board : Nat) (dir : Dir) : 0x40#8 ≤ opcode board dir ∧ opcode board dir ≤ 0x4F#8 := by
  have hdir : dir.bit.toNat < 2 := dir.bit.isLt
  simp only [BitVec.le_def, opcode_toNat, BitVec.toNat_ofNat]
  omega

/-- The opcode byte determines the direction and the board index modulo 8. -/
theorem opcode_eq_opcode_iff (b b' : Nat) (d d' : Dir) :
    opcode b d = opcode b' d' ↔ b % 8 = b' % 8 ∧ d = d' := by
  rw [← BitVec.toNat_inj, opcode_toNat, opcode_toNat, ← Dir.bit_injective.eq_iff, ← BitVec.toNat_inj]
  have hd : d.bit.toNat < 2 := d.bit.isLt
  have hd' : d'.bit.toNat < 2 := d'.bit.isLt
  omega

/-- Settles O1: the byte has the value of its layout, and its fields are where the layout puts them. -/
theorem opcodeByteValue : Obligations.OpcodeByteValue := by
  unfold Obligations.OpcodeByteValue
  constructor
  · intro board dir
    obtain ⟨header, address, direction⟩ := (opcode_eq_iff board dir _).mp rfl
    exact ⟨opcode_toNat board dir, header, address, direction, opcode_add_eight board dir, opcode_range board dir⟩
  · intro b b' d d' hb hb' h
    obtain ⟨hboard, hdir⟩ := (opcode_eq_opcode_iff b b' d d').mp h
    exact ⟨by rwa [Nat.mod_eq_of_lt hb, Nat.mod_eq_of_lt hb'] at hboard, hdir⟩

/-! ### FRAME and RESULT (R71, R72) -/

/-- RESULT is the lowest byte of the frame's number (R50, R72). -/
theorem result_eq_extract (rx : Frame) : result rx = rx.toBits.extractLsb' 0 8 :=
  (congrArg Frame.b2 (Frame.ofBits_toBits rx)).symm

/-- Settles O3: FRAME only places its bytes, and the frame's number has RESULT's byte at its low end. -/
theorem frameAndResultBytes : Obligations.FrameAndResultBytes := by
  unfold Obligations.FrameAndResultBytes
  exact ⟨fun _ _ _ => ⟨rfl, rfl, rfl, rfl⟩, result_eq_extract, fun _ _ _ _ _ => ⟨rfl, rfl⟩⟩

/-! ### UNFRAME (R73) -/

/-- The opcode bytes with given fields are exactly the values of OPCODE (R51, R70). -/
theorem opcodeFields_eq_some_iff_opcode (op : Byte) (a : BitVec 3) (w : Dir) :
    opcodeFields op = some (a, w) ↔ opcode a.toNat w = op := by
  rw [opcode_eq_iff, BitVec.ofNat_toNat, BitVec.setWidth_eq, ← Dir.ofBit_eq_iff]
  unfold opcodeFields
  split_ifs with h <;> simp [h]

/-- UNFRAME gives exactly the fields whose assembly by OPCODE and FRAME is the frame (R73). -/
theorem unframe_eq_some_iff_frame (f : Frame) (u : ReqFields) :
    unframe f = some u ↔ frame (opcode u.a.toNat u.w) u.r u.d = f := by
  rw [unframe_eq_some_iff, opcodeFields_eq_some_iff_opcode]
  cases f
  simp [frame, eq_comm]

/-- UNFRAME takes an assembled frame apart again, the board index modulo 8 (R73). -/
theorem unframe_frame_opcode (board : Nat) (dir : Dir) (reg data : Byte) :
    unframe (frame (opcode board dir) reg data) = some ⟨BitVec.ofNat 3 board, dir, reg, data⟩ := by
  rw [unframe_eq_some_iff_frame]
  have aliased : opcode (BitVec.ofNat 3 board).toNat dir = opcode board dir :=
    (opcode_eq_opcode_iff _ _ _ _).mpr ⟨by simp, rfl⟩
  rw [aliased]

/-- Settles O4: a frame that UNFRAME answers is the assembly of the fields it gives, so they stand where OPCODE and FRAME
put them; and it takes every assembly apart. -/
theorem unframeInvertsFrame : Obligations.UnframeInvertsFrame := by
  unfold Obligations.UnframeInvertsFrame
  refine ⟨unframe_eq_none_iff, ?_, ?_⟩
  · intro f u h
    have assembled := (unframe_eq_some_iff_frame f u).mp h
    obtain ⟨-, address, direction⟩ := (opcode_eq_iff u.a.toNat u.w f.b0).mp (congrArg Frame.b0 assembled)
    rw [BitVec.ofNat_toNat, BitVec.setWidth_eq] at address
    exact ⟨address.symm, direction.symm, congrArg Frame.b1 assembled, congrArg Frame.b2 assembled, assembled⟩
  · intro board dir reg data
    exact ⟨_, unframe_frame_opcode board dir reg data, BitVec.toNat_ofNat board 3, rfl, rfl, rfl⟩

end Sys2Proof.Machine
end

section
/-! SUPPORT. ISSUE and COMPLETE as a pair (R82 to R84, R92): what each takes from the command and from the answer, and what a
response means to an idle block (R86). -/

namespace Sys2Proof.Machine

/-! ### ISSUE (R82) -/

/-- The request frame by the formula of R82. -/
theorem requestFrame_eq (c : Command) :
    requestFrame c = frame (opcode c.board c.dir) c.reg (if c.dir = .read then 0x00#8 else c.data) := by
  obtain ⟨_ | _, b, r, d⟩ := c <;> rfl

/-- Settles O13: ISSUE writes the frame of R82 into every place it names, and that frame is all the step takes from the
command. -/
theorem issueEffect : Obligations.IssueEffect := by
  unfold Obligations.IssueEffect
  simp only [← requestFrame_eq]
  constructor
  · intro s c hq hb hc ht
    exact ⟨_, step_issue hq hb hc ht, rfl, rfl, rfl, rfl, rfl, rfl, hq, rfl⟩
  · intro s c c' hq hb _ hframe
    exact step_eq_of_requestFrame_eq hq hb hframe

/-! ### COMPLETE (R83, R84) -/

/-- Settles O18: COMPLETE delivers RESULT of a response frame and passes an error on. -/
theorem completeDeliversTheAnswer : Obligations.CompleteDeliversTheAnswer := by
  unfold Obligations.CompleteDeliversTheAnswer
  exact ⟨fun _ _ => step_complete, fun _ _ => step_complete⟩

/-- After ISSUE the next event with an answer on the response port is COMPLETE with that answer. -/
theorem step_complete_after_issue {s : State} (tx : Frame) (a : Answer) (hq : s.codec = none) :
    step { s.issue tx with rx := some a } = .next (State.complete a { s.issue tx with rx := some a }) :=
  step_complete hq rfl rfl

/-- Settles O19: ISSUE asserts and records the frame of the transaction whatever the answer will be, and COMPLETE after it
delivers and records the result of the transaction with the answer presented. -/
theorem issueThenCompleteIsTransaction : Obligations.IssueThenCompleteIsTransaction := by
  unfold Obligations.IssueThenCompleteIsTransaction
  intro s c hq hb hc ht
  refine ⟨_, step_issue hq hb hc ht, rfl, fun a => ?_⟩
  refine ⟨_, step_complete_after_issue _ a hq, rfl, rfl, rfl, ?trace, ?frame, ?result⟩
  case trace => simp [transaction]
  case frame => obtain ⟨_ | _, b, r, d⟩ := c <;> rfl
  case result => cases a <;> rfl

/-! ### A response with nothing in flight (R86) -/

/-- A response on the port of an idle block with no command is ignored. -/
theorem step_ignoreResponse {s : State} {a : Answer} (hq : s.codec = none) (hb : s.busy = false) (hc : s.cmd = none)
    (hr : s.rx = some a) : step s = .next s.ignoreResponse := by
  simp [step_other hq (.inr hc), otherEvent, hr, hb]

/-- ISSUE overwrites the response port and reads nothing of it. -/
theorem issue_rx_irrelevant (s : State) (tx : Frame) (r : Option Answer) :
    ({ s with rx := r } : State).issue tx = s.issue tx := rfl

/-- The step of an idle block with a command on its port does not depend on the response port. -/
theorem step_command_rx_irrelevant {s : State} {c : Command} (hq : s.codec = none) (hb : s.busy = false)
    (hc : s.cmd = some c) (r : Option Answer) : step { s with rx := r } = step s := by
  rw [step_command (s := { s with rx := r }) hq hb hc, step_command hq hb hc,
    exec_command c (s := { s with cmd := none, rx := r }) hb, exec_command c (s := { s with cmd := none }) hb,
    issue_rx_irrelevant { s with cmd := none }]

/-- Settles O22: without a command the response only leaves the port; with one the event is ISSUE, which does not see it. -/
theorem spuriousResponseIgnored : Obligations.SpuriousResponseIgnored := by
  unfold Obligations.SpuriousResponseIgnored
  constructor
  · intro s a hq hb hc hr
    exact step_ignoreResponse hq hb hc hr
  · intro s a c hq hb hc
    have unseen := step_command_rx_irrelevant hq hb hc
    exact (unseen (some a)).trans (unseen none).symm

end Sys2Proof.Machine
end

section
/-! SUPPORT. The hold (R85): what an event does on a busy block. -/

namespace Sys2Proof.Machine

variable {s t : State}

/-- An event from `s` to `t` at which the block neither issues nor completes: its own state and the trace stand, it asserts
neither a frame nor a result, and a command on the port stays there. -/
structure SilentEvent (s t : State) : Prop where
  busy : t.busy = s.busy
  inflight : t.inflight = s.inflight
  trace : t.trace = s.trace
  tx : t.out.tx = none
  res : t.out.res = none
  held : ∀ c, s.cmd = some c → t.cmd = some c

/-- No choice of the environment is an event of the block. -/
theorem applyMove_silent {m : Move} {ms : List Move} (h : applyMove m { s with moves := ms } = .next t) :
    SilentEvent s t := by
  rcases applyMove_next h with ⟨p, _, hfree, rfl⟩ | ⟨c, _, _, rfl⟩ | ⟨q, _, rfl⟩ | ⟨_, _, rfl⟩ | ⟨r, e, _, _, rfl⟩ |
    ⟨_, _, rfl⟩ | ⟨a, _, rfl⟩
  case inl => exact ⟨rfl, rfl, rfl, rfl, rfl, fun _ hc => nomatch hc.symm.trans hfree⟩
  all_goals exact ⟨rfl, rfl, rfl, rfl, rfl, fun _ hc => hc⟩

/-- On a busy block every event is COMPLETE or silent. -/
theorem step_busy_next (hb : s.busy = true) (h : step s = .next t) :
    (∃ a, s.rx = some a ∧ t = s.complete a) ∨ SilentEvent s t := by
  have notIdle : s.busy ≠ false := by simp [hb]
  rcases step_next h with ⟨q, _, rfl⟩ | ⟨c, _, idle, _⟩ | ⟨a, _, _, hr, ht⟩ | ⟨a, _, idle, _⟩ | ⟨_, _, _, _, rfl⟩ |
    ⟨m, ms, _, _, _, _, hmove⟩
  · exact .inr ⟨rfl, rfl, rfl, rfl, rfl, fun _ hc => hc⟩
  · exact absurd idle notIdle
  · exact .inl ⟨a, hr, ht⟩
  · exact absurd idle notIdle
  · exact .inr ⟨rfl, rfl, rfl, rfl, rfl, fun _ hc => hc⟩
  · exact .inr (applyMove_silent hmove)

/-- Settles O26: a silent event keeps the hold, and COMPLETE, which leaves the command port alone, ends it. -/
theorem commandIsHeldWhileBusy : Obligations.CommandIsHeldWhileBusy := by
  unfold Obligations.CommandIsHeldWhileBusy
  intro s t c hb hc h
  have notReady : s.cmdReady = false := by simp [State.cmdReady, hb]
  rcases step_busy_next hb h with ⟨a, _, rfl⟩ | silent
  · exact ⟨notReady, hc, rfl, .inr ⟨a.toResult, rfl, rfl, rfl⟩⟩
  · exact ⟨notReady, silent.held c hc, silent.tx, .inl ⟨silent.busy.trans hb, silent.trace⟩⟩

end Sys2Proof.Machine
end

section
/-! SUPPORT. The mask helpers of the host routines (R101, R102). -/

namespace Sys2Proof.Machine

/-- `pin_bit_mask` of a pin of the port is the one-bit byte at that position. -/
theorem pinBitMask_ok {pin : Int} (h0 : 0 ≤ pin) (h7 : pin ≤ 7) :
    pinBitMask pin = .ok (BitVec.twoPow 8 pin.toNat) :=
  if_neg (by omega)

/-- `pin_bit_mask` of a pin outside the port. -/
theorem pinBitMask_error {pin : Int} (h : pin < 0 ∨ 7 < pin) : pinBitMask pin = .error .pinRange :=
  if_pos h

/-- `pin_number_from_mask` finds the lowest set bit of bits 0 to 7, whatever stands above it. -/
theorem pinNumberFromMask_eq_of_lowest {mask i : Nat} (hi : i < 8) (isSet : mask.testBit i = true)
    (below : ∀ j < i, mask.testBit j = false) : pinNumberFromMask mask = i := by
  have found : (List.range 8).find? mask.testBit = some i :=
    List.find?_range_eq_some.2 ⟨isSet, List.mem_range.2 hi, fun j hj => by simp [below j hj]⟩
  simp [pinNumberFromMask, found]

/-- The fallback of `pin_number_from_mask`: pin 0 where none of bits 0 to 7 is set. -/
theorem pinNumberFromMask_eq_zero {mask : Nat} (clear : ∀ i < 8, mask.testBit i = false) :
    pinNumberFromMask mask = 0 := by
  have notFound : (List.range 8).find? mask.testBit = none :=
    List.find?_range_eq_none.2 fun i hi => by simp [clear i hi]
  simp [pinNumberFromMask, notFound]

/-- Settles O44: a pin of the port gives its power of two and any other pin the range error; a mask gives its lowest set
bit of bits 0 to 7, and 0 where there is none. -/
theorem maskHelpers : Obligations.MaskHelpers := by
  unfold Obligations.MaskHelpers
  refine ⟨fun pin => ⟨fun ⟨h0, h7⟩ => ⟨_, pinBitMask_ok h0 h7, ?value⟩, pinBitMask_error⟩,
    fun mask => ⟨fun _ => pinNumberFromMask_eq_of_lowest, pinNumberFromMask_eq_zero⟩⟩
  case value => exact BitVec.toNat_twoPow_of_lt (by omega)

end Sys2Proof.Machine
end

section
/-! SUPPORT. Decoder and encoder are inverse to each other (R50, R51, R57), so the step of a request runs the instruction that its
bytes decode to (R15, R61, R70). -/

namespace Sys2Proof

open Machine (encodeOpcode_eq_opcode opcodeFields_eq_some_iff_opcode)

theorem Instr.wellFormed_iff (i : Instr) : i.wellFormed = true ↔ i.board < 8 := decide_eq_true_iff

/-- The opcode bytes with given fields are exactly those the encoder lays out from them. -/
theorem opcodeFields_eq_some_iff_encodeOpcode (op : Byte) (a : BitVec 3) (w : Dir) :
    opcodeFields op = some (a, w) ↔ encodeOpcode a.toNat w = op := by
  rw [encodeOpcode_eq_opcode, opcodeFields_eq_some_iff_opcode]

/-- A board index that fits the address field is read back from it. -/
theorem exists_opcodeFields_encodeOpcode {b : Nat} (hb : b < 8) (w : Dir) :
    ∃ a, opcodeFields (encodeOpcode b w) = some (a, w) ∧ b = a.toNat := by
  have fits : (BitVec.ofNat 3 b).toNat = b := by rw [BitVec.toNat_ofNat, Nat.mod_eq_of_lt hb]
  exact ⟨BitVec.ofNat 3 b, by rw [opcodeFields_eq_some_iff_encodeOpcode, fits], fits.symm⟩

/-- Decoding inverts encoding, row by row. -/
theorem decode_encode {i : Instr} (h : i.board < 8) : decode (encode i) = .ok i := by
  cases i with
  | writeRegister b r d =>
    obtain ⟨a, fields, rfl⟩ := exists_opcodeFields_encodeOpcode h .write
    exact (decode_req_eq_ok_iff _ r d _).mpr (.inl ⟨a, fields, rfl⟩)
  | readRegister b r =>
    obtain ⟨a, fields, rfl⟩ := exists_opcodeFields_encodeOpcode h .read
    exact (decode_req_eq_ok_iff _ r _ _).mpr (.inr ⟨a, fields, rfl, rfl⟩)
  | opcodeW b =>
    obtain ⟨a, fields, rfl⟩ := exists_opcodeFields_encodeOpcode h .write
    exact (decode_opbyte_eq_ok_iff _ _).mpr (.inl ⟨a, fields, rfl⟩)
  | opcodeR b =>
    obtain ⟨a, fields, rfl⟩ := exists_opcodeFields_encodeOpcode h .read
    exact (decode_opbyte_eq_ok_iff _ _).mpr (.inr ⟨a, fields, rfl⟩)

/-- Settles O5: a well-formed board index fits the address field, and every other operand is a field of its own. -/
theorem decodeEncodeRoundTrip : Obligations.DecodeEncodeRoundTrip := by
  unfold Obligations.DecodeEncodeRoundTrip
  exact fun i h => decode_encode (i.wellFormed_iff.mp h)

/-- Only one byte or three decode (R50, R57, R62). -/
theorem decode_eq_ok_length {bs : List Byte} {i : Instr} (h : decode bs = .ok i) :
    (∃ op, bs = [op]) ∨ (∃ op r d, bs = [op, r, d]) := by
  match bs with
  | [] => cases h
  | [op] => exact .inl ⟨op, rfl⟩
  | [_, _] => cases h
  | [op, r, d] => exact .inr ⟨op, r, d, rfl⟩
  | _ :: _ :: _ :: _ :: _ => cases h

/-- Settles O6: the opcode byte is laid out from its fields, and the decoder hands on the other bytes as they are. -/
theorem decodedBytesAreTheEncoding : Obligations.DecodedBytesAreTheEncoding := by
  unfold Obligations.DecodedBytesAreTheEncoding
  intro bs i h
  simp only [Instr.wellFormed_iff]
  rcases decode_eq_ok_length h with ⟨op, rfl⟩ | ⟨op, r, d, rfl⟩
  · simp only [decode_opbyte_eq_ok_iff, opcodeFields_eq_some_iff_encodeOpcode] at h
    rcases h with ⟨a, rfl, rfl⟩ | ⟨a, rfl, rfl⟩ <;> exact ⟨a.isLt, rfl⟩
  · simp only [decode_req_eq_ok_iff, opcodeFields_eq_some_iff_encodeOpcode] at h
    rcases h with ⟨a, rfl, rfl⟩ | ⟨a, rfl, rfl, rfl⟩ <;> exact ⟨a.isLt, rfl⟩

/-- Settles O8: the words are closed, so the decoder itself runs on them. -/
theorem writtenOutWordsDecode : Obligations.WrittenOutWordsDecode := by
  unfold Obligations.WrittenOutWordsDecode
  decide

end Sys2Proof

namespace Sys2Proof.Machine

/-! ### The instruction that the step runs (R15, R70) -/

/-- A pending call of OPCODE is run at once. -/
theorem step_opcodeCall {s : State} {q : OpcodeCall} (h : s.codec = some q) :
    step s = exec q.toInstr { s with codec := none } := by
  rw [step_codec h, exec_opcodeCall]

/-- Settles O9: the word's instruction is the request on the port or in the slot, which the next step takes. -/
theorem stepRunsTheTableWord : Obligations.StepRunsTheTableWord := by
  unfold Obligations.StepRunsTheTableWord
  intro s nbits w i h
  simp only [State.withFetchWord, h]
  cases i with
  | writeRegister b r d => exact step_command (c := ⟨.write, b, r, d⟩) rfl rfl rfl
  | readRegister b r => exact step_command (c := ⟨.read, b, r, Config.readFill⟩) rfl rfl rfl
  | opcodeW b => exact step_opcodeCall (q := ⟨b, .write⟩) rfl
  | opcodeR b => exact step_opcodeCall (q := ⟨b, .read⟩) rfl

/-- Settles O10: the step takes the instruction of the request, and the port's board indices are those the encoding
carries, so decoding the encoding gives the same instruction. -/
theorem stepRunsTheRequest : Obligations.StepRunsTheRequest := by
  unfold Obligations.StepRunsTheRequest
  refine ⟨fun s c hq hb hc => ?command, fun s q h => ?call, fun c h => ?commandBytes, fun q h => ?callBytes⟩
  case command =>
    rw [step_command hq hb hc]
    obtain ⟨_ | _, b, r, d⟩ := c <;> rfl
  case call =>
    rw [step_opcodeCall h]
    obtain ⟨b, _ | _⟩ := q <;> rfl
  case commandBytes =>
    have hb : c.board < 8 := of_decide_eq_true h
    obtain ⟨_ | _, b, r, d⟩ := c <;> exact decode_encode hb
  case callBytes =>
    have hb : q.board < 8 := of_decide_eq_true h
    obtain ⟨b, _ | _⟩ := q <;> exact decode_encode hb

end Sys2Proof.Machine
end

section
/-! SUPPORT. One event of the machine is ISSUE, COMPLETE, or an event of the environment (R37, R82 to R88), and what each of the
three leaves alone; the invariant and the other whole-machine rules follow from that. -/

namespace Sys2Proof.Machine

variable {s t : State}

/-! ### The three kinds of event -/

/-- A silent event touches neither the bus nor the device, keeps an answer that stands on the response port of a busy block,
and moves the lifecycle only by a call of the Host (R19, R87). -/
structure EnvironmentEvent (s t : State) : Prop extends SilentEvent s t where
  bus : t.bus = s.bus
  double : t.double = s.double
  answer : s.busy = true → s.rx.isSome = true → t.rx = s.rx
  lifecycle : t.tstate = s.tstate ∨
    (∃ ms, s.moves = .openTransport .succeeds :: ms ∧ s.tstate = .neverOpened ∧ t.tstate = .opened) ∨
    (∃ ms, s.moves = .closeTransport :: ms ∧ s.tstate = .opened ∧ t.tstate = .closed)

theorem step_move_environment {m : Move} {ms : List Move} (hr : s.rx = none) (hm : s.moves = m :: ms)
    (h : applyMove m { s with moves := ms } = .next t) : EnvironmentEvent s t := by
  have silent := applyMove_silent h
  have noAnswer : s.busy = true → s.rx.isSome = true → t.rx = s.rx := by simp [hr]
  rcases applyMove_next h with ⟨_, _, _, rfl⟩ | ⟨_, _, _, rfl⟩ | ⟨_, _, rfl⟩ | ⟨rfl, hs, rfl⟩ | ⟨_, _, _, _, rfl⟩ |
    ⟨rfl, hs, rfl⟩ | ⟨_, _, rfl⟩
  case inr.inr.inr.inl => exact ⟨silent, rfl, rfl, noAnswer, .inr (.inl ⟨ms, hm, hs, rfl⟩)⟩
  case inr.inr.inr.inr.inr.inl => exact ⟨silent, rfl, rfl, noAnswer, .inr (.inr ⟨ms, hm, hs, rfl⟩)⟩
  all_goals exact ⟨silent, rfl, rfl, noAnswer, .inl rfl⟩

/-- Every event is ISSUE, COMPLETE or one of the environment. -/
theorem step_event (h : step s = .next t) :
    (∃ c, s.busy = false ∧ s.tstate ≠ .closed ∧ t = ({ s with cmd := none } : State).issue (requestFrame c)) ∨
    (∃ a, s.busy = true ∧ t = s.complete a) ∨ EnvironmentEvent s t := by
  rcases step_next h with ⟨_, _, rfl⟩ | ⟨c, _, hb, _, ht, rfl⟩ | ⟨a, _, hb, _, rfl⟩ | ⟨_, _, hb, _, _, rfl⟩ |
    ⟨_, _, _, _, rfl⟩ | ⟨_, _, _, _, hr, hm, hmove⟩
  · exact .inr (.inr ⟨⟨rfl, rfl, rfl, rfl, rfl, fun _ hc => hc⟩, rfl, rfl, fun _ _ => rfl, .inl rfl⟩)
  · exact .inl ⟨c, hb, ht, rfl⟩
  · exact .inr (.inl ⟨a, hb, rfl⟩)
  · exact .inr (.inr ⟨⟨rfl, rfl, rfl, rfl, rfl, fun _ hc => hc⟩, rfl, rfl, by simp [hb], .inl rfl⟩)
  · exact .inr (.inr ⟨⟨rfl, rfl, rfl, rfl, rfl, fun _ hc => hc⟩, rfl, rfl, fun _ _ => rfl, .inl rfl⟩)
  · exact .inr (.inr (step_move_environment hr hm hmove))

/-! ### The trace (R89) -/

/-- A trace in two parts: the second goes on with the frame that the first leaves pending. -/
theorem pendingAfter_append (p : Option Frame) (l l' : List Event) :
    pendingAfter p (l ++ l') = (pendingAfter p l).bind fun q => pendingAfter q l' := by
  induction l generalizing p with
  | nil => rfl
  | cons e l ih => cases p <;> cases e <;> simp [pendingAfter, ih]

/-- An alternating trace has an even number of events exactly when it ends as it began: pending or not. -/
theorem pendingAfter_length_even {p q : Option Frame} {l : List Event} (h : pendingAfter p l = some q) :
    l.length % 2 = 0 ↔ p.isSome = q.isSome := by
  induction p, l using pendingAfter.induct with
  | case1 p => cases h; simp
  | case2 tx l ih =>
    have rest := ih h
    cases q <;> simp at rest ⊢ <;> omega
  | case3 tx r l ih =>
    have rest := ih h
    cases q <;> simp at rest ⊢ <;> omega
  | case4 => cases h
  | case5 => cases h

/-! ### The frames the block issues (R58) -/

theorem requestFrame_producible (c : Command) : Producible (requestFrame c) := by
  refine ⟨_, unframe_frame_opcode c.board c.dir c.reg _, fun isRead => ?_⟩
  simp only at isRead
  simp only [isRead, dataField]

theorem mem_busAfter {tx f : Frame} (h : f ∈ busAfter tx s) : f ∈ s.bus ∨ f = tx := by
  unfold busAfter at h
  cases ht : s.tstate <;> simp only [ht, List.mem_append, List.mem_singleton] at h <;> tauto

theorem doubleAfter_wf {tx : Frame} (h : ∀ d, s.double = some d → d.mem.wf) :
    ∀ d, doubleAfter tx s = some d → d.mem.wf := by
  intro d hd
  unfold doubleAfter at hd
  cases ht : s.tstate <;> simp only [ht] at hd
  case opened =>
    obtain ⟨d', hd', rfl⟩ := Option.map_eq_some_iff.mp hd
    exact Double.transfer_wf tx (h d' hd')
  all_goals exact h d hd

/-! ### The invariant -/

theorem Inv.issue (hi : Inv s) (hb : s.busy = false) (c : Command) :
    Inv (({ s with cmd := none } : State).issue (requestFrame c)) := by
  have notPending : s.inflight = none := by simpa [hb] using hi.busy_iff
  constructor
  case busy_iff => rfl
  case alternates => simp [pendingAfter_append, hi.alternates, notPending, pendingAfter]
  case produced =>
    intro tx h
    simp only [State.issue_trace, List.mem_append, List.mem_singleton, Event.issue.injEq] at h
    rcases h with h | rfl
    · exact hi.produced tx h
    · exact requestFrame_producible c
  case bus_issued =>
    intro tx h
    simp only [State.issue_trace, List.mem_append, List.mem_singleton, Event.issue.injEq]
    exact (mem_busAfter h).imp_left (hi.bus_issued tx)
  case bus_silent =>
    intro h
    exact (State.busAfter_neverOpened { s with cmd := none } _ h).trans (hi.bus_silent h)
  case unopened_answer => exact fun h _ => State.settledAnswer_neverOpened _ _ h
  case mem_wf => exact doubleAfter_wf hi.mem_wf

theorem Inv.complete (hi : Inv s) (hb : s.busy = true) (a : Answer) : Inv (s.complete a) := by
  obtain ⟨tx, pending⟩ := Option.isSome_iff_exists.mp (hi.busy_iff.symm.trans hb)
  constructor
  case busy_iff => rfl
  case alternates => simp [pendingAfter_append, hi.alternates, pending, pendingAfter]
  case produced => exact fun tx h => hi.produced tx (by simpa using h)
  case bus_issued => exact fun tx h => by simpa using hi.bus_issued tx h
  case bus_silent => exact hi.bus_silent
  case unopened_answer => exact fun _ => nofun
  case mem_wf => exact hi.mem_wf

/-- An event after which the Transport was never opened found it so. -/
theorem EnvironmentEvent.unopened (he : EnvironmentEvent s t) (h : t.tstate = .neverOpened) :
    s.tstate = .neverOpened := by
  rcases he.lifecycle with same | ⟨_, _, _, moved⟩ | ⟨_, _, _, moved⟩
  · exact same.symm.trans h
  · cases moved.symm.trans h
  · cases moved.symm.trans h

theorem Inv.environment (hi : Inv s) (he : EnvironmentEvent s t) : Inv t := by
  constructor
  case busy_iff => rw [he.busy, he.inflight, hi.busy_iff]
  case alternates => rw [he.trace, he.inflight, hi.alternates]
  case produced => rw [he.trace]; exact hi.produced
  case bus_issued => rw [he.trace, he.bus]; exact hi.bus_issued
  case bus_silent => exact fun h => he.bus.trans (hi.bus_silent (he.unopened h))
  case unopened_answer =>
    intro h hb
    rw [he.busy] at hb
    have settled := hi.unopened_answer (he.unopened h) hb
    exact (he.answer hb (by rw [settled]; rfl)).trans settled
  case mem_wf => rw [he.double]; exact hi.mem_wf

/-- Settles O37, for each of the three kinds of event. -/
theorem invariantKeptByEveryStep : Obligations.InvariantKeptByEveryStep := by
  unfold Obligations.InvariantKeptByEveryStep
  intro s t hi h
  rcases step_event h with ⟨c, hb, _, rfl⟩ | ⟨a, hb, rfl⟩ | he
  · exact hi.issue hb c
  · exact hi.complete hb a
  · exact hi.environment he

/-- Settles O38: at reset nothing has happened, and there is no device. -/
theorem resetHasTheInvariant : Obligations.ResetHasTheInvariant := by
  unfold Obligations.ResetHasTheInvariant
  exact ⟨rfl, rfl, nofun, nofun, fun _ => rfl, fun _ => nofun, nofun⟩

/-- Settles O39: the trace leaves the frame in flight unanswered, and at the end there is none. -/
theorem finalRunIsAllAnswered : Obligations.FinalRunIsAllAnswered := by
  unfold Obligations.FinalRunIsAllAnswered
  rintro s hi ⟨hb, notPending, _, _⟩
  have answered : pendingAfter none s.trace = some none := notPending ▸ hi.alternates
  exact ⟨answered, hb, (pendingAfter_length_even answered).mpr rfl⟩

/-! ### The other whole-machine rules -/

/-- Settles O15: only ISSUE asserts a frame, and it is a command's request frame. -/
theorem issuedFramesAreProducible : Obligations.IssuedFramesAreProducible := by
  unfold Obligations.IssuedFramesAreProducible
  intro s t tx h asserted
  rcases step_event h with ⟨c, _, _, rfl⟩ | ⟨a, _, rfl⟩ | he
  · simp only [State.issue_out, Option.some.injEq] at asserted
    subst asserted
    exact ⟨requestFrame_producible c, opcode_range c.board c.dir⟩
  · cases asserted
  · cases he.tx.symm.trans asserted

/-- Running an instruction leaves the lifecycle alone, whether it issues, is held or returns an opcode byte. -/
theorem exec_tstate {i : Instr} (h : exec i s = .next t) : t.tstate = s.tstate := by
  have transaction (c : Command) (h : issueCommand c s = .next t) : t.tstate = s.tstate := by
    unfold issueCommand at h
    split_ifs at h
    · rcases driveCommand_next h with ⟨_, rfl⟩ | ⟨_, _, _, rfl⟩ <;> rfl
    · cases h; rfl
  cases i with
  | writeRegister b r d => exact transaction _ h
  | readRegister b r => exact transaction _ h
  | opcodeW b => cases h; rfl
  | opcodeR b => cases h; rfl

/-- Settles O32: ISSUE and COMPLETE leave the lifecycle alone, and an event of the environment moves it as stated. -/
theorem onlyTheHostMovesTheLifecycle : Obligations.OnlyTheHostMovesTheLifecycle := by
  unfold Obligations.OnlyTheHostMovesTheLifecycle
  refine ⟨fun _ _ _ => exec_tstate, fun s t h => ?_⟩
  rcases step_event h with ⟨_, _, _, rfl⟩ | ⟨_, _, rfl⟩ | he
  · exact .inl rfl
  · exact .inl rfl
  · exact he.lifecycle

/-- Settles O35: the three cases are the three kinds of event. -/
theorem oneEventAtATime : Obligations.OneEventAtATime := by
  unfold Obligations.OneEventAtATime
  intro s t h
  rcases step_event h with ⟨c, hb, _, rfl⟩ | ⟨a, hb, rfl⟩ | he
  · exact .inr (.inl ⟨requestFrame c, rfl, hb, rfl, rfl, rfl⟩)
  · exact .inr (.inr ⟨a.toResult, rfl, hb, rfl, rfl, rfl⟩)
  · exact .inl ⟨he.trace, he.busy, he.inflight, he.tx, he.res⟩

/-- Settles O36: ISSUE, which needs a Transport not closed, puts its frame on the bus of an open one only. -/
theorem busChangesOnlyAtIssue : Obligations.BusChangesOnlyAtIssue := by
  unfold Obligations.BusChangesOnlyAtIssue
  intro s t h
  rcases step_event h with ⟨c, _, notClosed, rfl⟩ | ⟨a, _, rfl⟩ | he
  · have lifecycle : s.tstate = .opened ∨ s.tstate = .neverOpened := by
      cases ht : s.tstate <;> simp [ht] at notClosed ⊢
    rw [State.issue_bus, State.issue_double]
    rcases lifecycle with ht | ht
    · exact .inr (.inl ⟨_, rfl, ht, State.busAfter_opened _ _ ht⟩)
    · exact .inr (.inr ⟨_, rfl, ht, State.busAfter_neverOpened _ _ ht, State.doubleAfter_neverOpened _ _ ht⟩)
  · exact .inl ⟨rfl, rfl, rfl⟩
  · exact .inl ⟨he.tx, he.bus, he.double⟩

end Sys2Proof.Machine
end

section
/-! SUPPORT. The meaning of the four instructions: ISSUE on an idle block, the hold on a busy one, the value of OPCODE (R70, R80
to R82, R85), and the moves of the Transport's lifecycle (R19). -/

namespace Sys2Proof.Machine

variable {s : State}

/-! ### ISSUE (R82), by the lifecycle of the Transport -/

theorem issue_opened (tx : Frame) (ht : s.tstate = .opened) (hd : s.double = none) :
    s.issue tx = { s with
      busy := true, inflight := some tx, out := { tx := some tx }, trace := s.trace ++ [.issue tx]
      rx := none, bus := s.bus ++ [tx] } := by
  unfold State.issue
  rw [State.settledAnswer_noDouble s tx ht hd, State.busAfter_opened s tx ht, State.doubleAfter_none s tx hd, ← hd]

theorem issue_neverOpened (tx : Frame) (ht : s.tstate = .neverOpened) :
    s.issue tx = { s with
      busy := true, inflight := some tx, out := { tx := some tx }, trace := s.trace ++ [.issue tx]
      rx := some (.err .initError) } := by
  unfold State.issue
  rw [State.settledAnswer_neverOpened s tx ht, State.busAfter_neverOpened s tx ht, State.doubleAfter_neverOpened s tx ht]

/-- An idle block runs a transaction as ISSUE unless the Transport is closed. -/
theorem exec_command_issue (c : Command) (hb : s.busy = false) (ht : s.tstate ≠ .closed) :
    exec c.toInstr s = .next (s.issue (requestFrame c)) := by
  rw [exec_command c hb, if_neg ht]

/-- Settles O11: ISSUE over an open Transport. -/
theorem transactionIssuesWhenOpen : Obligations.TransactionIssuesWhenOpen := by
  unfold Obligations.TransactionIssuesWhenOpen
  intro s b r d hb ht hd
  have issued (c : Command) := exec_command_issue c hb (by simp [ht])
  simp only [issue_opened _ ht hd] at issued
  exact ⟨issued ⟨.write, b, r, d⟩, issued ⟨.read, b, r, d⟩⟩

/-- Settles O12: ISSUE before open. -/
theorem transactionIssuesBeforeOpen : Obligations.TransactionIssuesBeforeOpen := by
  unfold Obligations.TransactionIssuesBeforeOpen
  intro s b r d hb ht
  have issued (c : Command) := exec_command_issue c hb (by simp [ht])
  simp only [issue_neverOpened _ ht] at issued
  exact ⟨issued ⟨.write, b, r, d⟩, issued ⟨.read, b, r, d⟩⟩

/-! ### The board index and the value of OPCODE (R32, R70) -/

theorem opcode_add_multiple_of_eight (b k : Nat) (dir : Dir) : opcode (b + 8 * k) dir = opcode b dir :=
  (opcode_eq_opcode_iff _ _ _ _).mpr ⟨Nat.add_mul_mod_self_left b 8 k, rfl⟩

/-- On an idle block a transaction depends on its command only through the request frame. -/
theorem exec_eq_of_requestFrame_eq {c c' : Command} (hb : s.busy = false) (h : requestFrame c = requestFrame c') :
    exec c.toInstr s = exec c'.toInstr s := by
  rw [exec_command c hb, exec_command c' hb, h]

/-- Settles O16: the board index reaches the machine only in the opcode byte. -/
theorem boardIndexAliases : Obligations.BoardIndexAliases := by
  unfold Obligations.BoardIndexAliases
  intro s b k r d
  have transaction (dir : Dir) (hb : s.busy = false) :
      exec (Command.toInstr ⟨dir, b + 8 * k, r, d⟩) s = exec (Command.toInstr ⟨dir, b, r, d⟩) s :=
    exec_eq_of_requestFrame_eq hb (by simp only [requestFrame, opcode_add_multiple_of_eight])
  have call (dir : Dir) : exec (OpcodeCall.toInstr ⟨b + 8 * k, dir⟩) s = exec (OpcodeCall.toInstr ⟨b, dir⟩) s := by
    rw [exec_opcodeCall, exec_opcodeCall, opcode_add_multiple_of_eight]
  exact ⟨transaction .write, transaction .read, call .write, call .read⟩

/-- Settles O17: the call returns the value of OPCODE, which is its layout's number. -/
theorem opcodeCallReturnsTheByte : Obligations.OpcodeCallReturnsTheByte := by
  unfold Obligations.OpcodeCallReturnsTheByte
  intro s b
  refine ⟨exec_opcodeCall ⟨b, .write⟩, exec_opcodeCall ⟨b, .read⟩, opcode_toNat b .write, ?_⟩
  rw [opcode_toNat, show Dir.read.bit.toNat = 1 from rfl]
  omega

/-! ### The hold (R85) and the fault after close (R38 (c), U1) -/

/-- A transaction asked of a busy block is its command presented on the port. -/
theorem issueCommand_busy (c : Command) (hb : s.busy = true) : issueCommand c s = driveCommand (some c) s := by
  simp [issueCommand, hb]

theorem driveCommand_free (p : Option Command) (h : s.cmd = none) :
    driveCommand p s = .next { s with cmd := p, out := {} } := by
  simp [driveCommand, h]

theorem driveCommand_same {c : Command} (h : s.cmd = some c) : driveCommand (some c) s = .next s.quiet := by
  simp [driveCommand, h]

theorem driveCommand_changed {c c' : Command} (h : s.cmd = some c) (hc : c ≠ c') :
    driveCommand (some c') s = .refused .operandsChangedWhileHeld := by
  simp [driveCommand, h, hc.symm]

/-- Settles O27: on a busy block each transaction is its command, driven on the port. -/
theorem transactionWaitsWhileBusy : Obligations.TransactionWaitsWhileBusy := by
  unfold Obligations.TransactionWaitsWhileBusy
  intro s b r d hb
  have write : exec (.writeRegister b r d) s = driveCommand (some ⟨.write, b, r, d⟩) s := issueCommand_busy _ hb
  have read : exec (.readRegister b r) s = driveCommand (some ⟨.read, b, r, 0x00#8⟩) s := issueCommand_busy _ hb
  rw [write, read]
  exact ⟨fun free => ⟨driveCommand_free _ free, driveCommand_free _ free⟩, driveCommand_same, driveCommand_same,
    fun _ => driveCommand_changed, fun _ => driveCommand_changed⟩

theorem exec_command_closed (c : Command) (hb : s.busy = false) (ht : s.tstate = .closed) :
    exec c.toInstr s = .fault .useAfterClose := by
  rw [exec_command c hb, if_pos ht]

theorem step_command_closed {c : Command} (hq : s.codec = none) (hb : s.busy = false) (hc : s.cmd = some c)
    (ht : s.tstate = .closed) : step s = .fault .useAfterClose := by
  rw [step_command hq hb hc]
  exact exec_command_closed c hb ht

/-- The environment's choices may be refused, but none is a fault. -/
theorem applyMove_ne_fault (m : Move) (f : Fault) : applyMove m s ≠ .fault f := by
  cases m with
  | drive p =>
    cases hc : s.cmd with
    | none => simp [applyMove, driveCommand_free p hc]
    | some c => by_cases hp : p = some c <;> simp [applyMove, driveCommand, hc, hp]
  | callOpcode q => nofun
  | openTransport r => cases ht : s.tstate <;> cases r <;> simp [applyMove, hostOpen, ht]
  | closeTransport => cases ht : s.tstate <;> simp [applyMove, hostClose, ht]
  | answer a => nofun
  | reset => nofun

theorem otherEvent_ne_fault (f : Fault) : otherEvent s ≠ .fault f := by
  unfold otherEvent
  cases s.rx with
  | some a => nofun
  | none =>
    cases s.moves with
    | nil => nofun
    | cons m ms => exact applyMove_ne_fault m f

/-- A step that faults found a command on the port of an idle block whose Transport is closed. -/
theorem step_fault {f : Fault} (h : step s = .fault f) :
    f = .useAfterClose ∧ s.tstate = .closed ∧ s.cmd.isSome = true := by
  cases hq : s.codec with
  | some q => cases (step_codec hq).symm.trans h
  | none =>
    by_cases hbc : s.busy = true ∨ s.cmd = none
    · exact absurd ((step_other hq hbc).symm.trans h) (otherEvent_ne_fault f)
    · simp only [not_or, Bool.not_eq_true] at hbc
      obtain ⟨hb, hc⟩ := hbc
      obtain ⟨c, hc⟩ := Option.ne_none_iff_exists'.mp hc
      by_cases ht : s.tstate = .closed
      · cases (step_command_closed hq hb hc ht).symm.trans h
        exact ⟨rfl, ht, by rw [hc]; rfl⟩
      · cases (step_issue hq hb hc ht).symm.trans h

/-- Settles O30: the fault is ISSUE's answer to a closed Transport, and nothing else raises one. -/
theorem useAfterCloseFaults : Obligations.UseAfterCloseFaults := by
  unfold Obligations.UseAfterCloseFaults
  refine ⟨fun s b r d hb ht => ⟨?_, ?_⟩, fun _ _ => step_command_closed, fun _ _ => step_fault⟩
  · exact exec_command_closed ⟨.write, b, r, d⟩ hb ht
  · exact exec_command_closed ⟨.read, b, r, d⟩ hb ht

/-! ### The Host's calls on the Transport (R19) -/

/-- Settles O31: with no call, no answer and no acceptable command the Host's move takes place, as the lifecycle says. -/
theorem lifecycleMoves : Obligations.LifecycleMoves := by
  unfold Obligations.LifecycleMoves
  intro s ms r hq hr hbc
  have moved (m : Move) : step { s with moves := m :: ms } = applyMove m { s with moves := ms } :=
    step_move (s := { s with moves := m :: ms }) hq hbc hr rfl
  simp only [moved]
  refine ⟨?_, ?_, ?_, ?_, ?_, ?_, rfl⟩ <;> intro ht <;> simp [applyMove, hostOpen, hostClose, ht]

end Sys2Proof.Machine
end

section
/-! SUPPORT. The signals of the four ports, read off the fields they belong to (R15 to R18). -/

namespace Sys2Proof.Machine.State

variable {s : State}

theorem cmd_signals_none (h : s.cmd = none) :
    s.cmdValid = false ∧ s.cmdDir = none ∧ s.cmdBoard = none ∧ s.cmdReg = none ∧ s.cmdData = none := by
  simp [cmdValid, cmdDir, cmdBoard, cmdReg, cmdData, h]

theorem cmd_signals_some {c : Command} (h : s.cmd = some c) :
    s.cmdValid = true ∧ s.cmdDir = some c.dir.bit ∧ s.cmdBoard = some c.board ∧ s.cmdReg = some c.reg ∧
      s.cmdData = some c.data := by
  simp [cmdValid, cmdDir, cmdBoard, cmdReg, cmdData, h]

theorem tx_signals_none (h : s.out.tx = none) : s.txValid = false ∧ s.txFrame = none := by
  simp [txValid, txFrame, h]

theorem tx_signals_some {f : Frame} (h : s.out.tx = some f) : s.txValid = true ∧ s.txFrame = some f.toBits := by
  simp [txValid, txFrame, h]

theorem rx_signals_none (h : s.rx = none) :
    s.rxValid = false ∧ s.rxErr = none ∧ s.rxCode = none ∧ s.rxFrame = none := by
  simp [rxValid, rxErr, rxCode, rxFrame, h]

theorem rx_signals_ok {f : Frame} (h : s.rx = some (.ok f)) :
    s.rxValid = true ∧ s.rxErr = some false ∧ s.rxCode = none ∧ s.rxFrame = some f.toBits := by
  simp [rxValid, rxErr, rxCode, rxFrame, h]

theorem rx_signals_err {e : ErrCode} (h : s.rx = some (.err e)) :
    s.rxValid = true ∧ s.rxErr = some true ∧ s.rxCode = some e ∧ s.rxFrame = none := by
  simp [rxValid, rxErr, rxCode, rxFrame, h]

theorem res_signals_none (h : s.out.res = none) :
    s.resValid = false ∧ s.resErr = none ∧ s.resCode = none ∧ s.resData = none := by
  simp [resValid, resErr, resCode, resData, h]

theorem res_signals_ok {b : Byte} (h : s.out.res = some (.ok b)) :
    s.resValid = true ∧ s.resErr = some false ∧ s.resCode = none ∧ s.resData = some b := by
  simp [resValid, resErr, resCode, resData, h]

theorem res_signals_err {e : ErrCode} (h : s.out.res = some (.err e)) :
    s.resValid = true ∧ s.resErr = some true ∧ s.resCode = some e ∧ s.resData = none := by
  simp [resValid, resErr, resCode, resData, h]

end Sys2Proof.Machine.State

namespace Sys2Proof.Machine

/-- Settles O34, port by port; the direction signal is the bit of R53. -/
theorem portSignals : Obligations.PortSignals := by
  unfold Obligations.PortSignals
  intro s
  refine ⟨rfl, State.cmd_signals_none, fun c hc => ?command, State.tx_signals_none, fun _ => State.tx_signals_some,
    State.rx_signals_none, fun _ => State.rx_signals_ok, fun _ => State.rx_signals_err, State.res_signals_none,
    fun _ => State.res_signals_ok, fun _ => State.res_signals_err⟩
  case command =>
    obtain ⟨_ | _, b, r, d⟩ := c <;> exact State.cmd_signals_some hc

end Sys2Proof.Machine
end

section
/-! SUPPORT. A transaction event by event: what COMPLETE makes of the answer (R83, R84), how long a frame stays in flight (R88),
and what no event looks at (R139). -/

namespace Sys2Proof.Machine

variable {s t : State}

/-! ### COMPLETE (R56, R83, R84, R139) -/

theorem step_complete_presented (a : Answer) (hq : s.codec = none) (hb : s.busy = true) :
    step { s with rx := some a } = .next (s.complete a) :=
  step_complete (s := { s with rx := some a }) hq hb rfl

/-- COMPLETE sees of an answer only the result it delivers. -/
theorem complete_eq_of_toResult_eq {a a' : Answer} (h : a.toResult = a'.toResult) : s.complete a = s.complete a' := by
  unfold State.complete
  rw [h]

/-- Settles O23: RESULT takes the third byte of a response, and COMPLETE takes RESULT. -/
theorem responseHeadIsIgnored : Obligations.ResponseHeadIsIgnored := by
  unfold Obligations.ResponseHeadIsIgnored
  intro s x y x' y' z hb hq
  rw [step_complete_presented _ hq hb, step_complete_presented _ hq hb]
  exact congrArg _ (complete_eq_of_toResult_eq rfl)

/-- Settles O25: both events are COMPLETE, which uses the answer only for the result. -/
theorem errorLeavesTheBlockAsSuccessDoes : Obligations.ErrorLeavesTheBlockAsSuccessDoes := by
  unfold Obligations.ErrorLeavesTheBlockAsSuccessDoes
  intro s e rx hq hb
  exact ⟨_, _, step_complete_presented _ hq hb, step_complete_presented _ hq hb, rfl, rfl, rfl⟩

/-! ### From the answer to the result (R88, R161) -/

/-- While busy, an answer that is the environment's next choice is delivered at the second event. -/
theorem runSteps_answer_complete {a : TransportChoice} {ms : List Move} (k : Nat) (hq : s.codec = none)
    (hb : s.busy = true) (hr : s.rx = none) (hm : s.moves = .answer a :: ms) :
    runSteps (k + 2) s = runSteps k (State.complete a.toAnswer { s with moves := ms }) := by
  have presented : step s = .next { s with moves := ms, rx := some a.toAnswer, out := {} } :=
    step_move hq (.inl hb) hr hm
  exact (runSteps_next _ presented).trans (runSteps_next _ (step_complete hq hb rfl))

/-- Settles O29: the answer is presented, then delivered; the command port is not touched. -/
theorem answeredFrameCompletes : Obligations.AnsweredFrameCompletes := by
  unfold Obligations.AnsweredFrameCompletes
  intro s a ms hq hb hr hm
  refine ⟨_, runSteps_answer_complete 0 hq hb hr hm, rfl, rfl, rfl, rfl, ?result⟩
  case result => cases a <;> rfl

/-- Settles O20: ISSUE, then the answer and its delivery. -/
theorem wholeTransactionOverOpenTransport : Obligations.WholeTransactionOverOpenTransport := by
  unfold Obligations.WholeTransactionOverOpenTransport
  intro s c a ms hq hb hc ht hd hm
  have issued := step_issue hq hb hc (by simp [ht])
  have unsettled : settledAnswer (requestFrame c) { s with cmd := none } = none :=
    State.settledAnswer_noDouble { s with cmd := none } _ ht hd
  have answered :=
    runSteps_answer_complete (s := State.issue (requestFrame c) { s with cmd := none }) 0 hq rfl unsettled hm
  rw [runSteps_next 2 issued, answered, issue_opened (s := { s with cmd := none }) _ ht hd]
  cases a <;> simp [State.complete, TransportChoice.toAnswer, Answer.toResult, result, hb]

/-- Settles O21: before open ISSUE settles `InitError`, which the second event delivers; a failed `open` only tells the
Host. -/
theorem initErrorBeforeOpen : Obligations.InitErrorBeforeOpen := by
  unfold Obligations.InitErrorBeforeOpen
  constructor
  · intro s c hq hb hc ht
    have issued := step_issue hq hb hc (by simp [ht])
    rw [issue_neverOpened (s := { s with cmd := none }) _ ht] at issued
    refine ⟨_, (runSteps_next 1 issued).trans (runSteps_next 0 (step_complete hq rfl rfl)), rfl, rfl, rfl, ht, rfl, ?trace⟩
    case trace => simp [Answer.toResult]
  · rintro s ms ⟨hb, hc, hr, hq⟩ ht
    have moved (m : Move) : step { s with moves := m :: ms } = applyMove m { s with moves := ms } :=
      step_move (s := { s with moves := m :: ms }) hq (.inr hc) hr rfl
    simp only [moved]
    exact ⟨by simp [applyMove, hostOpen, ht], fun n => by simp [applyMove, hostOpen, ht]⟩

/-! ### The hang (R88) -/

/-- A choice that is no answer leaves the response port and the choices still to come alone. -/
theorem applyMove_not_answer {m : Move} (h : applyMove m s = .next t) (hm : m.isAnswer = false) :
    t.rx = s.rx ∧ t.moves = s.moves := by
  rcases applyMove_next h with ⟨_, _, _, rfl⟩ | ⟨_, _, _, rfl⟩ | ⟨_, _, rfl⟩ | ⟨_, _, rfl⟩ | ⟨_, _, _, _, rfl⟩ |
    ⟨_, _, rfl⟩ | ⟨_, rfl, _⟩
  case inr.inr.inr.inr.inr.inr => cases hm
  all_goals exact ⟨rfl, rfl⟩

/-- An event without an answer is silent, and no answer comes by it. -/
theorem step_unanswered (hu : Unanswered s) (h : step s = .next t) : SilentEvent s t ∧ Unanswered t := by
  obtain ⟨hb, hr, noAnswer⟩ := hu
  have silent : SilentEvent s t := by
    rcases step_busy_next hb h with ⟨a, presented, _⟩ | silent
    · cases hr.symm.trans presented
    · exact silent
  refine ⟨silent, silent.busy.trans hb, ?_⟩
  rcases step_next h with ⟨_, _, rfl⟩ | ⟨_, _, idle, _⟩ | ⟨_, _, _, presented, _⟩ | ⟨_, _, idle, _⟩ |
    ⟨_, _, _, _, rfl⟩ | ⟨m, ms, _, _, _, hm, hmove⟩
  · exact ⟨hr, noAnswer⟩
  · cases hb.symm.trans idle
  · cases hr.symm.trans presented
  · cases hb.symm.trans idle
  · exact ⟨hr, noAnswer⟩
  · rw [hm, List.forall_mem_cons] at noAnswer
    obtain ⟨rxKept, movesKept⟩ := applyMove_not_answer hmove noAnswer.1
    exact ⟨rxKept.trans hr, movesKept ▸ noAnswer.2⟩

/-- Where the environment makes no more choices a busy block without an answer always has a next event. -/
theorem step_unanswered_exists (hu : Unanswered s) (hm : s.moves = []) :
    ∃ t, step s = .next t ∧ Unanswered t ∧ t.moves = [] := by
  obtain ⟨hb, hr, -⟩ := id hu
  cases hq : s.codec with
  | some q => exact ⟨_, step_codec hq, hu, hm⟩
  | none => exact ⟨_, step_quiet hq (.inl hb) hr hm, hu, hm⟩

/-- What any number of silent events amounts to. -/
theorem runSteps_unanswered {k : Nat} (hu : Unanswered s) (h : runSteps k s = .next t) :
    Unanswered t ∧ t.inflight = s.inflight ∧ t.trace = s.trace ∧ (∀ c, s.cmd = some c → t.cmd = some c) ∧
      (0 < k → t.out.res = none ∧ t.out.tx = none) := by
  induction k generalizing s with
  | zero =>
    cases h
    exact ⟨hu, rfl, rfl, fun _ hc => hc, nofun⟩
  | succ k ih =>
    obtain ⟨u, first, rest⟩ := runSteps_succ h
    obtain ⟨silent, hu'⟩ := step_unanswered hu first
    obtain ⟨unanswered, inflight, trace, held, outputs⟩ := ih hu' rest
    refine ⟨unanswered, inflight.trans silent.inflight, trace.trans silent.trace,
      fun c hc => held c (silent.held c hc), fun _ => ?_⟩
    cases k with
    | zero =>
      cases rest
      exact ⟨silent.res, silent.tx⟩
    | succ k => exact outputs k.succ_pos

/-- Settles O28: every event of the hang is silent, and there always is one. -/
theorem unansweredFrameHangs : Obligations.UnansweredFrameHangs := by
  unfold Obligations.UnansweredFrameHangs
  refine ⟨fun _ _ _ => runSteps_unanswered, fun k => ?_⟩
  induction k with
  | zero => exact fun s _ _ => ⟨s, rfl⟩
  | succ k ih =>
    intro s hu hm
    obtain ⟨t, first, hu', hm'⟩ := step_unanswered_exists hu hm
    obtain ⟨u, rest⟩ := ih t hu' hm'
    exact ⟨u, (runSteps_next k first).trans rest⟩

/-! ### The outputs and the trace so far are not read (R139) -/

/-- The same state with other outputs and another trace. -/
def State.withHistory (s : State) (o : Outputs) (tr : List Event) : State := { s with out := o, trace := tr }

/-- Two outcomes of one event from states with the traces `tr` and `tr'`: the same fault, the same refusal, or next states
equal but for the trace, to which both append the same events. -/
def SameEvent (tr tr' : List Event) : Host.Outcome State Fault Refusal → Host.Outcome State Fault Refusal → Prop
  | .next t, .next u => ∃ ev, t.trace = tr ++ ev ∧ u.trace = tr' ++ ev ∧ { u with trace := t.trace } = t
  | .fault f, .fault g => f = g
  | .refused r, .refused q => r = q
  | _, _ => False

theorem SameEvent.silent (t : State) (tr : List Event) :
    SameEvent t.trace tr (.next t) (.next { t with trace := tr }) :=
  ⟨[], by simp, by simp, rfl⟩

variable (s) (o : Outputs) (tr : List Event)

theorem driveCommand_sameEvent (p : Option Command) :
    SameEvent s.trace tr (driveCommand p s) (driveCommand p (s.withHistory o tr)) := by
  cases hc : s.cmd with
  | none =>
    rw [driveCommand_free p hc, driveCommand_free (s := s.withHistory o tr) p hc]
    exact .silent { s with cmd := p, out := {} } tr
  | some c =>
    cases p with
    | none => simp only [driveCommand, State.withHistory, hc]; rfl
    | some c' =>
      by_cases same : c = c'
      · subst same
        rw [driveCommand_same hc, driveCommand_same (s := s.withHistory o tr) hc]
        exact .silent s.quiet tr
      · rw [driveCommand_changed hc same, driveCommand_changed (s := s.withHistory o tr) hc same]
        rfl

theorem hostOpen_sameEvent (r : OpenOutcome) :
    SameEvent s.trace tr (hostOpen r s) (hostOpen r (s.withHistory o tr)) := by
  have failed (e : ErrCode) :=
    SameEvent.silent { s with tstate := .neverOpened, out := { ret := some (.openFailed e) } } tr
  cases ht : s.tstate <;> cases r <;> simp only [hostOpen, State.withHistory, ht]
  case neverOpened.succeeds => exact .silent { s with tstate := .opened, out := { ret := some .opened } } tr
  case neverOpened.nodeUnavailable => exact failed .initError
  case neverOpened.platformError n => exact failed (.io n)
  all_goals rfl

theorem hostClose_sameEvent : SameEvent s.trace tr (hostClose s) (hostClose (s.withHistory o tr)) := by
  cases ht : s.tstate <;> simp only [hostClose, State.withHistory, ht]
  case opened => exact .silent { s with tstate := .closed, out := { ret := some .closed } } tr
  all_goals rfl

theorem applyMove_sameEvent (m : Move) :
    SameEvent s.trace tr (applyMove m s) (applyMove m (s.withHistory o tr)) := by
  cases m with
  | drive p => exact driveCommand_sameEvent s o tr p
  | callOpcode q => exact .silent { s with codec := some q, out := {} } tr
  | openTransport r => exact hostOpen_sameEvent s o tr r
  | closeTransport => exact hostClose_sameEvent s o tr
  | answer a => exact .silent { s with rx := some a.toAnswer, out := {} } tr
  | reset => rfl

/-- An event at which no instruction starts: COMPLETE, an ignored response, a choice of the environment, or nothing. -/
theorem step_other_sameEvent (hq : s.codec = none) (hbc : s.busy = true ∨ s.cmd = none) :
    SameEvent s.trace tr (step s) (step (s.withHistory o tr)) := by
  cases hr : s.rx with
  | some a =>
    by_cases hb : s.busy = true
    · rw [step_complete hq hb hr, step_complete (s := s.withHistory o tr) hq hb hr]
      exact ⟨[.complete a.toResult], rfl, rfl, rfl⟩
    · have hc := hbc.resolve_left hb
      rw [Bool.not_eq_true] at hb
      rw [step_ignoreResponse hq hb hc hr, step_ignoreResponse (s := s.withHistory o tr) hq hb hc hr]
      exact .silent s.ignoreResponse tr
  | none =>
    cases hm : s.moves with
    | nil =>
      rw [step_quiet hq hbc hr hm, step_quiet (s := s.withHistory o tr) hq hbc hr hm]
      exact .silent s.quiet tr
    | cons m ms =>
      rw [step_move hq hbc hr hm, step_move (s := s.withHistory o tr) hq hbc hr hm]
      exact applyMove_sameEvent { s with moves := ms } o tr m

/-- The event of a command on the port of an idle block: ISSUE, or the fault after close. -/
theorem step_command_sameEvent {c : Command} (hq : s.codec = none) (hb : s.busy = false) (hc : s.cmd = some c) :
    SameEvent s.trace tr (step s) (step (s.withHistory o tr)) := by
  by_cases ht : s.tstate = .closed
  · rw [step_command_closed hq hb hc ht, step_command_closed (s := s.withHistory o tr) hq hb hc ht]
    rfl
  · rw [step_issue hq hb hc ht, step_issue (s := s.withHistory o tr) hq hb hc ht]
    exact ⟨[.issue (requestFrame c)], rfl, rfl, rfl⟩

/-- Settles O24, in the order in which the step looks at its inputs: a call, a command it can accept, anything else. -/
theorem stepForgetsHistory : Obligations.StepForgetsHistory := by
  unfold Obligations.StepForgetsHistory
  intro s o tr
  show SameEvent s.trace tr (step s) (step (s.withHistory o tr))
  cases hq : s.codec with
  | some q =>
    rw [step_codec hq, step_codec (s := s.withHistory o tr) hq]
    exact .silent { s with codec := none, out := { ret := some (.opcode (opcode q.board q.dir)) } } tr
  | none =>
    by_cases hbc : s.busy = true ∨ s.cmd = none
    · exact step_other_sameEvent s o tr hq hbc
    · simp only [not_or, Bool.not_eq_true] at hbc
      obtain ⟨hb, hc⟩ := hbc
      obtain ⟨c, hc⟩ := Option.ne_none_iff_exists'.mp hc
      exact step_command_sameEvent s o tr hq hb hc

end Sys2Proof.Machine
end

section
/-! SUPPORT. Host routines over an open Transport without a device model: one transaction, a script of them, and a fixed sequence
(R43, R80, R81, R88, R116). -/

namespace Sys2Proof.Machine

variable {s : State} {α : Type}

/-! ### One transaction of a routine -/

/-- An idle block with an open Transport, no device model, and these choices of the environment still to come. -/
structure Ready (s : State) (ms : List Move) : Prop where
  idle : Idle s
  opened : s.tstate = .opened
  noDevice : s.double = none
  moves : s.moves = ms

/-- `t` is `s` after a whole transaction of the command `c` that was answered by `a`, with `ms` still to come. -/
structure Transacted (c : Command) (a : TransportChoice) (ms : List Move) (s t : State) : Prop where
  ready : Ready t ms
  bus : t.bus = s.bus ++ [requestFrame c]
  trace : t.trace = s.trace ++ [.issue (requestFrame c), .complete a.toAnswer.toResult]

theorem hostTransact_ready {a : TransportChoice} {ms : List Move} (h : Ready s (.answer a :: ms)) (c : Command) :
    ∃ t, Transacted c a ms s t ∧ hostTransact c s = HostRun.ofResult a.toAnswer.toResult t := by
  obtain ⟨idle, opened, noDevice, moves⟩ := h
  have unsettled := State.settledAnswer_noDouble s (requestFrame c) opened noDevice
  refine ⟨_, ?_, hostTransact_answered c idle (by simp [opened]) unsettled moves⟩
  have ready : Ready (s.afterTransaction (requestFrame c) a.toAnswer ms) ms :=
    ⟨afterTransaction_idle _ _ _ _, opened, State.doubleAfter_none s _ noDevice, rfl⟩
  exact ⟨ready, State.busAfter_opened s _ opened, rfl⟩

/-- A transaction that is answered by a response: the routine goes on with its third byte. -/
theorem run_transact_ok {rx : Frame} {ms : List Move} (h : Ready s (.answer (.ok rx) :: ms)) (c : Command)
    (q : OpenOutcome) :
    ∃ t, Transacted c (.ok rx) ms s t ∧
      ∀ k : Byte → HostProg α, (HostProg.transact c k).run q s = (k rx.b2).run q t := by
  obtain ⟨t, transacted, result⟩ := hostTransact_ready h c
  exact ⟨t, transacted, fun k => by rw [HostProg.run, result]; rfl⟩

/-- A transaction that fails: the routine ends with the error. -/
theorem run_transact_ioError {n : Nat} {ms : List Move} (h : Ready s (.answer (.ioError n) :: ms)) (c : Command)
    (k : Byte → HostProg α) (q : OpenOutcome) :
    ∃ t, Transacted c (.ioError n) ms s t ∧
      (HostProg.transact c k).run q s = .done (.error (.transport (.io n))) t := by
  obtain ⟨t, transacted, result⟩ := hostTransact_ready h c
  exact ⟨t, transacted, by rw [HostProg.run, result]; rfl⟩

/-- A Host that waits on a hung block waits for as long as it cares to (R88). -/
theorem awaitResult_unanswered (n : Nat) {s : State} (hu : Unanswered s) (hm : s.moves = []) :
    ∃ t, awaitResult n s = .waiting t ∧ t.trace = s.trace ∧ Unanswered t := by
  induction n generalizing s with
  | zero => exact ⟨s, rfl, rfl, hu⟩
  | succ n ih =>
    obtain ⟨t, next, hu', hm'⟩ := step_unanswered_exists hu hm
    obtain ⟨silent, -⟩ := step_unanswered hu next
    obtain ⟨u, waiting, trace, hung⟩ := ih hu' hm'
    exact ⟨u, (awaitResult_more next silent.res).trans waiting, trace.trans silent.trace, hung⟩

/-- A transaction that is never answered: the Host waits on a hung block. -/
theorem run_transact_unanswered (h : Ready s []) (c : Command) (k : Byte → HostProg α) (q : OpenOutcome) :
    ∃ t, (HostProg.transact c k).run q s = .waiting t ∧ t.trace = s.trace ++ [.issue (requestFrame c)] ∧
      Unanswered t := by
  obtain ⟨idle, opened, noDevice, moves⟩ := h
  have driven := idle_drive c idle
  obtain ⟨hb, -, -, hq⟩ := idle
  have issued := step_issue (s := { s with cmd := some c, out := {} }) (c := c) hq hb rfl (by simp [opened])
  have unsettled : settledAnswer (requestFrame c) { s with cmd := none, out := {} } = none :=
    State.settledAnswer_noDouble { s with cmd := none, out := {} } _ opened noDevice
  have hung : Unanswered (State.issue (requestFrame c) { s with cmd := none, out := {} }) :=
    ⟨rfl, unsettled, by simp [moves]⟩
  obtain ⟨t, waiting, trace, hung⟩ := awaitResult_unanswered (2 * s.moves.length + 2) hung moves
  have run : hostTransact c s = .waiting t :=
    (awaitResult_more driven rfl).trans ((awaitResult_more issued rfl).trans waiting)
  exact ⟨t, by rw [HostProg.run, run], trace, hung⟩

/-! ### The script of a routine -/

/-- The run of a routine of transactions from `s` gives what its script says: the events, the return value and the answers
left, or where they run out a hung block. -/
def RunMeets (p : HostProg α) (q : OpenOutcome) (s : State) :
    List Event × Option (Except HostError α) × List TransportChoice → Prop
  | (ev, some v, rest) => ∃ t, p.run q s = .done v t ∧ t.trace = s.trace ++ ev ∧ t.moves = rest.map .answer ∧
      t.busy = false ∧ t.tstate = .opened
  | (ev, none, _) => ∃ t, p.run q s = .waiting t ∧ t.trace = s.trace ++ ev ∧ Unanswered t

/-- A routine whose run goes on as that of `p'` after the events `ev`. -/
theorem RunMeets.prepend {p p' : HostProg α} {q : OpenOutcome} {t : State} {ev : List Event}
    {sc : List Event × Option (Except HostError α) × List TransportChoice} (hrun : p.run q s = p'.run q t)
    (htrace : t.trace = s.trace ++ ev) (h : RunMeets p' q t sc) : RunMeets p q s (ev ++ sc.1, sc.2) := by
  obtain ⟨ev', _ | v, rest⟩ := sc
  · obtain ⟨u, run, trace, unanswered⟩ := h
    exact ⟨u, hrun.trans run, by rw [trace, htrace, List.append_assoc], unanswered⟩
  · obtain ⟨u, run, trace, finished⟩ := h
    exact ⟨u, hrun.trans run, by rw [trace, htrace, List.append_assoc], finished⟩

theorem run_meets_script (q : OpenOutcome) {p : HostProg α} (hp : p.onlyTransacts) (l : List TransportChoice) {s : State}
    (h : Ready s (l.map .answer)) : RunMeets p q s (p.script l) := by
  induction p generalizing l s with
  | ret v =>
    obtain ⟨⟨hb, -, -, -⟩, opened, -, moves⟩ := h
    exact ⟨s, rfl, by simp, moves, hb, opened⟩
  | transact c k ih =>
    match l with
    | [] => exact run_transact_unanswered h c k q
    | .ok rx :: l =>
      obtain ⟨t, transacted, goesOn⟩ := run_transact_ok h c q
      exact .prepend (goesOn k) transacted.trace (ih rx.b2 (hp rx.b2) l transacted.ready)
    | .ioError n :: l =>
      obtain ⟨t, transacted, ends⟩ := run_transact_ioError h c k q
      obtain ⟨⟨hb, -, -, -⟩, opened, -, moves⟩ := transacted.ready
      exact ⟨t, ends, transacted.trace, moves, hb, opened⟩
  | openTransport k ih => exact absurd hp id
  | closeTransport k ih => exact absurd hp id

/-- Settles O43, by induction on the routine: each transaction takes the next answer, as in the script. -/
theorem sequentialHostFollowsTheScript : Obligations.SequentialHostFollowsTheScript := by
  unfold Obligations.SequentialHostFollowsTheScript
  intro α p l s q hp idle opened noDevice moves
  exact run_meets_script q hp l ⟨idle, opened, noDevice, moves⟩

end Sys2Proof.Machine
end

section
/-! SUPPORT. The whole-port and single-pin routines (R103 to R111) over an open Transport without a device model. -/

namespace Sys2Proof.Machine

variable {s : State} {α : Type}

/-! ### Whole-port routines (R103 to R107) -/

/-- What a routine of one transaction returns for an answer, `f` being what it makes of the byte. -/
def returned (f : Byte → α) : TransportChoice → Except HostError α
  | .ok rx => .ok (f rx.b2)
  | .ioError n => .error (.transport (.io n))

theorem run_one_transaction {a : TransportChoice} {ms : List Move} (h : Ready s (.answer a :: ms)) (c : Command)
    (f : Byte → α) (q : OpenOutcome) :
    ∃ t, Transacted c a ms s t ∧
      (HostProg.transact c fun raw => .ret (.ok (f raw))).run q s = .done (returned f a) t := by
  cases a with
  | ok rx =>
    obtain ⟨t, transacted, goesOn⟩ := run_transact_ok h c q
    exact ⟨t, transacted, goesOn _⟩
  | ioError n => exact run_transact_ioError h c _ q

/-- Inverting a byte is XOR with 0xFF. -/
theorem xor_ff_eq_not (v : Byte) : v ^^^ 0xFF#8 = ~~~v := BitVec.xor_allOnes

/-- Settles O45: each routine is one transaction and what it makes of the byte. -/
theorem wholePortRoutines : Obligations.WholePortRoutines := by
  unfold Obligations.WholePortRoutines
  intro s b data q a ms idle opened noDevice moves p tx f hp
  have ready : Ready s (.answer a :: ms) := ⟨idle, opened, noDevice, moves⟩
  have one (c : Command) (g : Byte → Byte) : ∃ t, (HostProg.transact c fun raw => .ret (.ok (g raw))).run q s =
      .done (returned g a) t ∧ t.bus = s.bus ++ [requestFrame c] ∧ t.moves = ms ∧ Idle t := by
    obtain ⟨t, transacted, run⟩ := run_one_transaction ready c g q
    exact ⟨t, run, transacted.bus, transacted.ready.moves, transacted.ready.idle⟩
  rcases hp with ⟨rfl, rfl, rfl⟩ | ⟨rfl, rfl, rfl⟩ | ⟨rfl, rfl, rfl⟩ | ⟨rfl, rfl, rfl⟩ | ⟨rfl, rfl, rfl⟩
  · exact one ⟨.read, b, Config.portA, Config.readFill⟩ id
  · exact one ⟨.write, b, Config.portA, data⟩ id
  · rw [← funext xor_ff_eq_not]
    exact one ⟨.read, b, Config.portB, Config.readFill⟩ _
  · exact one ⟨.read, b, Config.pullupB, Config.readFill⟩ id
  · exact one ⟨.write, b, Config.pullupB, data⟩ id

/-! ### Single-pin routines (R108 to R111) -/

theorem withMask_error {pin : Int} (h : pin < 0 ∨ 7 < pin) (f : Byte → HostProg α) :
    withMask pin f = .ret (.error .pinRange) := by
  simp [withMask, pinBitMask_error h]

theorem withMask_ok {pin : Int} (h0 : 0 ≤ pin) (h7 : pin ≤ 7) (f : Byte → HostProg α) :
    withMask pin f = f (BitVec.twoPow 8 pin.toNat) := by
  simp [withMask, pinBitMask_ok h0 h7]

/-- A read of a register and then a write of the byte with the masked bit changed: what both pin writes are in range. -/
def readModifyWrite (reg : Byte) (value : Int) (m : Byte) (b : Nat) : HostProg Byte :=
  .transact ⟨.read, b, reg, Config.readFill⟩ fun old =>
    writeRegister reg (updatedByte value old m) b

theorem digitalWrite_eq (pin value : Int) (b : Nat) :
    digitalWrite pin value b = withMask pin fun m => readModifyWrite Config.portA value m b := rfl

theorem digitalWritePullup_eq (pin value : Int) (b : Nat) :
    digitalWritePullup pin value b = withMask pin fun m => readModifyWrite Config.pullupB value m b := rfl

/-- The byte written back has the pin's bit equal to the truth of the value and every other bit as read. -/
theorem getLsbD_updatedByte (value : Int) (old : Byte) {i n : Nat} (hi : i < 8) :
    (updatedByte value old (BitVec.twoPow 8 n)).getLsbD i = if i = n then decide (value ≠ 0) else old.getLsbD i := by
  unfold updatedByte
  rw [xor_ff_eq_not]
  by_cases hin : i = n
  · subst hin
    by_cases hv : value = 0 <;> simp [hv, hi]
  · by_cases hv : value = 0 <;> simp [hv, hin, hi]

/-- Settles O46: both routines are one read-modify-write behind the mask. -/
theorem pinWriteIsReadModifyWrite : Obligations.PinWriteIsReadModifyWrite := by
  unfold Obligations.PinWriteIsReadModifyWrite
  intro s pin value b q idle opened noDevice p reg hp
  have masked : p = withMask pin fun m => readModifyWrite reg value m b := by
    rcases hp with ⟨rfl, rfl⟩ | ⟨rfl, rfl⟩
    · exact digitalWrite_eq pin value b
    · exact digitalWritePullup_eq pin value b
  subst masked
  refine ⟨fun out => ?outOfRange, fun h0 h7 rx a ms moves => ?bothAnswered, fun h0 h7 n ms moves => ?readFails⟩
  case outOfRange => rw [withMask_error out]; rfl
  case bothAnswered =>
    rw [withMask_ok h0 h7]
    obtain ⟨t, read, goesOn⟩ := run_transact_ok ⟨idle, opened, noDevice, moves⟩ ⟨.read, b, reg, Config.readFill⟩ q
    obtain ⟨u, written, run⟩ := run_one_transaction read.ready
      ⟨.write, b, reg, updatedByte value rx.b2 (BitVec.twoPow 8 pin.toNat)⟩ id q
    refine ⟨u, _, (goesOn _).trans run, by rw [written.bus, read.bus, List.append_assoc]; rfl, written.ready.moves, ?bits⟩
    case bits =>
      intro i hi
      have samePin : (i : Int) = pin ↔ i = pin.toNat := by omega
      simp only [samePin]
      exact getLsbD_updatedByte value rx.b2 hi
  case readFails =>
    rw [withMask_ok h0 h7]
    obtain ⟨t, failed, run⟩ := run_transact_ioError ⟨idle, opened, noDevice, moves⟩ ⟨.read, b, reg, Config.readFill⟩ _ q
    exact ⟨t, run, failed.bus, failed.ready.moves⟩

theorem twoPow_ne_zero {n : Nat} (hn : n < 8) : BitVec.twoPow 8 n ≠ 0#8 := fun h => by
  have bit := congrArg (·.getLsbD n) h
  simp [hn] at bit

/-- The bit under a one-bit mask, as 0 or 1. -/
theorem maskedBit_twoPow (v : Byte) {n : Nat} (hn : n < 8) :
    maskedBit v (BitVec.twoPow 8 n) = if v.getLsbD n = true then 1 else 0 := by
  unfold maskedBit
  rw [BitVec.and_twoPow]
  cases v.getLsbD n <;> simp [twoPow_ne_zero hn]

/-- A read of a register and the masked bit of what `f` makes of the byte: what both pin reads are in range. -/
def readPin (reg : Byte) (f : Byte → Byte) (m : Byte) (b : Nat) : HostProg Nat :=
  .transact ⟨.read, b, reg, Config.readFill⟩ fun raw => .ret (.ok (maskedBit (f raw) m))

theorem digitalRead_eq (pin : Int) (b : Nat) :
    digitalRead pin b = withMask pin fun m => readPin Config.portB (· ^^^ 0xFF#8) m b := rfl

theorem digitalReadPullup_eq (pin : Int) (b : Nat) :
    digitalReadPullup pin b = withMask pin fun m => readPin Config.pullupB id m b := rfl

/-- The inverted byte of an active-low pin has the bit set where the raw byte has it clear (R109, R163). -/
theorem maskedBit_inverted (raw : Byte) {n : Nat} (hn : n < 8) :
    maskedBit (raw ^^^ 0xFF#8) (BitVec.twoPow 8 n) = if raw.getLsbD n = false then 1 else 0 := by
  rw [xor_ff_eq_not, maskedBit_twoPow _ hn]
  simp [hn]

/-- Settles O47: both routines are one read behind the mask; digital_read inverts the byte first. -/
theorem pinReadNormalises : Obligations.PinReadNormalises := by
  unfold Obligations.PinReadNormalises
  intro s pin b q idle opened noDevice p reg active hp
  have masked : ∃ f : Byte → Byte, p = (withMask pin fun m => readPin reg f m b) ∧
      ∀ (raw : Byte) {n : Nat}, n < 8 →
        maskedBit (f raw) (BitVec.twoPow 8 n) = if raw.getLsbD n = active then 1 else 0 := by
    rcases hp with ⟨rfl, rfl, rfl⟩ | ⟨rfl, rfl, rfl⟩
    · exact ⟨_, digitalRead_eq pin b, maskedBit_inverted⟩
    · exact ⟨_, digitalReadPullup_eq pin b, maskedBit_twoPow⟩
  obtain ⟨f, rfl, bit⟩ := masked
  refine ⟨fun out => ?outOfRange, fun h0 h7 a ms moves => ?inRange⟩
  case outOfRange => rw [withMask_error out]; rfl
  case inRange =>
    have onPort : pin.toNat < 8 := by omega
    simp only [withMask_ok h0 h7, readPin, bit _ onPort]
    obtain ⟨t, read, run⟩ := run_one_transaction ⟨idle, opened, noDevice, moves⟩ ⟨.read, b, reg, Config.readFill⟩
      (fun raw => if raw.getLsbD pin.toNat = active then 1 else 0) q
    exact ⟨t, run, read.bus, read.ready.moves⟩

end Sys2Proof.Machine
end

section
/-! SUPPORT. Sequences of transactions over an open Transport without a device model (R116), and the routines that begin and end
with the Transport's lifecycle (R112 to R114). -/

namespace Sys2Proof.Machine

variable {s : State} {α : Type}

/-! ### A fixed sequence of transactions (R116) -/

/-- Commands that are all answered by responses put their frames on the bus, and what follows them goes on from there. -/
theorem run_inOrder_append (q : OpenOutcome) (cs : List Command) {rxs : List Frame} {ms : List Move} {s : State}
    (hl : rxs.length = cs.length) (h : Ready s (rxs.map (fun rx => .answer (.ok rx)) ++ ms)) :
    ∃ t, Ready t ms ∧ t.bus = s.bus ++ cs.map requestFrame ∧
      ∀ rest, (inOrder (cs ++ rest)).run q s = (inOrder rest).run q t := by
  induction cs generalizing rxs s with
  | nil =>
    obtain rfl := List.length_eq_zero_iff.mp hl
    exact ⟨s, h, by simp, fun _ => rfl⟩
  | cons c cs ih =>
    obtain ⟨rx, rxs, rfl⟩ := List.exists_cons_of_length_eq_add_one hl
    obtain ⟨t, transacted, goesOn⟩ := run_transact_ok h c q
    obtain ⟨u, ready, bus, run⟩ := ih (Nat.succ_injective hl) transacted.ready
    refine ⟨u, ready, by simp [bus, transacted.bus], fun rest => ?_⟩
    exact (goesOn fun _ => inOrder (cs ++ rest)).trans (run rest)

/-- Settles O50: the commands before the failing one are answered, and the routine ends at its error. -/
theorem transportErrorStopsTheSequence : Obligations.TransportErrorStopsTheSequence := by
  unfold Obligations.TransportErrorStopsTheSequence
  intro cs c rest s q rxs n ms idle opened noDevice hl moves
  obtain ⟨t, ready, bus, run⟩ := run_inOrder_append q cs hl ⟨idle, opened, noDevice, moves⟩
  obtain ⟨u, failed, ends⟩ := run_transact_ioError ready c (fun _ => inOrder rest) q
  exact ⟨u, (run _).trans ends, by rw [failed.bus, bus], failed.ready.moves, failed.ready.idle⟩

/-! ### Bring-up and teardown (R112 to R114) -/

/-- Where nothing stands on a port the environment's next choice takes place. -/
theorem idle_move (hi : Idle s) (m : Move) : step { s with moves := m :: s.moves } = applyMove m s := by
  obtain ⟨hb, hc, hr, hq⟩ := hi
  exact step_move (s := { s with moves := m :: s.moves }) hq (.inr hc) hr rfl

/-- The state after an `open` that succeeds. -/
def State.afterOpen (s : State) : State := { s with tstate := .opened, out := { ret := some .opened } }

theorem run_openTransport_succeeds (hi : Idle s) (ht : s.tstate = .neverOpened) (k : HostProg α) :
    (HostProg.openTransport k).run .succeeds s = k.run .succeeds s.afterOpen := by
  have opened : step { s with moves := .openTransport .succeeds :: s.moves } = .next s.afterOpen := by
    rw [idle_move hi]
    simp [applyMove, hostOpen, ht, State.afterOpen]
  rw [HostProg.run, opened]
  rfl

theorem run_openTransport_nodeUnavailable (hi : Idle s) (ht : s.tstate = .neverOpened) (k : HostProg α) :
    (HostProg.openTransport k).run .nodeUnavailable s =
      .done (.error (.transport .initError)) { s with out := { ret := some (.openFailed .initError) } } := by
  have failed : step { s with moves := .openTransport .nodeUnavailable :: s.moves } =
      .next { s with out := { ret := some (.openFailed .initError) } } := by
    rw [idle_move hi]
    simp [applyMove, hostOpen, ht]
  rw [HostProg.run, failed]
  rfl

/-- The request frames of the bring-up (R112). -/
theorem bringUpCommands_frames (v : Config.BringUpValues) :
    (bringUpCommands v).map requestFrame =
      ((List.range 8).flatMap fun b =>
        [⟨opcode b .write, 0x0A#8, v.haenValue⟩, ⟨opcode b .write, 0x12#8, 0x00#8⟩,
         ⟨opcode b .write, 0x00#8, v.allOutputs⟩, ⟨opcode b .write, 0x01#8, v.allInputs⟩,
         ⟨opcode b .write, 0x0D#8, v.allPullups⟩]) ++
      (List.range 8).map fun b => ⟨opcode b .write, 0x12#8, 0x00#8⟩ := by
  rw [bringUpCommands, List.map_append, List.map_flatMap, List.map_map]
  rfl

/-- Settles O48: after `open` the bring-up is a fixed sequence of transactions; without ports, and after a failed `open`,
there is none. -/
theorem bringUpIssuesTheFixedFrames : Obligations.BringUpIssuesTheFixedFrames := by
  unfold Obligations.BringUpIssuesTheFixedFrames
  intro s v rxs idle ht noDevice hl moves
  refine ⟨?withPorts, ?withoutPorts, fun ports => ?openFails⟩
  case withPorts =>
    have ready : Ready s.afterOpen (rxs.map (fun rx => .answer (.ok rx)) ++ []) :=
      ⟨idle, rfl, noDevice, by rw [List.append_nil]; exact moves⟩
    have count : rxs.length = (bringUpCommands v).length := hl
    obtain ⟨t, finished, bus, run⟩ := run_inOrder_append .succeeds (bringUpCommands v) count ready
    have whole := run []
    rw [List.append_nil] at whole
    refine ⟨t, (run_openTransport_succeeds idle ht _).trans whole, finished.opened, finished.idle, finished.moves, ?_⟩
    rw [bus, bringUpCommands_frames, List.append_assoc]
    rfl
  case withoutPorts => exact ⟨_, run_openTransport_succeeds idle ht _, rfl, rfl, rfl⟩
  case openFails => exact ⟨_, run_openTransport_nodeUnavailable idle ht _, ht, rfl, rfl⟩

/-- A transaction over a closed Transport: the command is presented, and ISSUE is the fault of U1. -/
theorem run_transact_closed (hi : Idle s) (ht : s.tstate = .closed) (c : Command) (k : Byte → HostProg α)
    (q : OpenOutcome) : (HostProg.transact c k).run q s = .fault .useAfterClose := by
  have driven := idle_drive c hi
  obtain ⟨hb, -, -, hq⟩ := hi
  have faulted : step { s with cmd := some c, out := {} } = .fault .useAfterClose :=
    step_command_closed (s := { s with cmd := some c, out := {} }) hq hb rfl ht
  have transaction : hostTransact c s = .fault .useAfterClose := by
    unfold hostTransact
    rw [awaitResult_more driven rfl, awaitResult, faulted]
  rw [HostProg.run, transaction]

/-- The state after a `close`. -/
def State.afterClose (s : State) : State := { s with tstate := .closed, out := { ret := some .closed } }

theorem run_deinit (hi : Idle s) (ht : s.tstate = .opened) (q : OpenOutcome) :
    deinit.run q s = .done (.ok ()) s.afterClose := by
  have closed : step { s with moves := .closeTransport :: s.moves } = .next s.afterClose := by
    rw [idle_move hi]
    simp [applyMove, hostClose, ht, State.afterClose]
  rw [deinit, HostProg.run, closed]
  rfl

/-- Settles O49: `close` moves the lifecycle alone, and leaves an idle block over a closed Transport. -/
theorem deinitThenAnyTransactionFaults : Obligations.DeinitThenAnyTransactionFaults := by
  unfold Obligations.DeinitThenAnyTransactionFaults
  intro s q idle opened
  have stillIdle : Idle s.afterClose := idle
  exact ⟨_, run_deinit idle opened q, rfl, rfl, rfl, stillIdle, fun _ c k => run_transact_closed stillIdle rfl c k q⟩

end Sys2Proof.Machine
end

section
/-! SUPPORT. The view objects: their construction and what they delegate to (R115). -/

namespace Sys2Proof.Machine

theorem mkView_eq_ok_iff (kind : Config.ViewKind) (i : Int) (b : Nat) (v : View) :
    mkView kind i b = .ok v ↔ (0 ≤ i ∧ i ≤ viewMax kind) ∧ ⟨kind, Config.viewPin kind i.toNat, b⟩ = v := by
  unfold mkView
  split_ifs with out
  · simp; omega
  · simp; omega

theorem exists_mkView_iff (kind : Config.ViewKind) (i : Int) (b : Nat) :
    (∃ v, mkView kind i b = .ok v) ↔ 0 ≤ i ∧ i ≤ viewMax kind := by
  simp [mkView_eq_ok_iff]

theorem mkView_error {kind : Config.ViewKind} {i : Int} (h : i < 0 ∨ viewMax kind < i) (b : Nat) :
    mkView kind i b = .error (viewRangeError kind) :=
  if_pos h

/-- Settles O52: construction by the range of the kind, use by the kind alone. -/
theorem viewObjectContract : Obligations.ViewObjectContract := by
  unfold Obligations.ViewObjectContract
  refine ⟨fun i b => ⟨exists_mkView_iff .led i b, exists_mkView_iff .relay i b, exists_mkView_iff .switch i b,
    fun h => mkView_error (kind := .led) h b, fun h => mkView_error (kind := .relay) h b,
    fun h => mkView_error (kind := .switch) h b⟩, ?held, ?output, ?input, ?refused⟩
  case held =>
    intro kind i b v h
    obtain ⟨-, rfl⟩ := (mkView_eq_ok_iff kind i b v).mp h
    exact ⟨rfl, rfl, rfl⟩
  case output =>
    rintro ⟨kind, pin, board⟩ value (rfl | rfl) <;> rfl
  case input =>
    rintro ⟨kind, pin, board⟩ rfl
    rfl
  case refused =>
    rintro ⟨kind, pin, board⟩ value q s rfl
    rfl

end Sys2Proof.Machine
end

section
/-! SUPPORT. The reference double behind an open Transport (D23, log 8): what a transfer makes of the device and answers, and what
transactions and routines over it read and store. -/

namespace Sys2Proof.Machine

variable {s : State} {d : Double}

/-! ### A transfer of the double -/

/-- The device with one register stored: board modulo 8 (R30, R32). -/
def Double.store (d : Double) (b : Nat) (r v : Byte) : Double :=
  { d with mem := d.mem.write (regAddr (BitVec.ofNat 3 b) r) v }

@[simp] theorem Double.store_cross (b : Nat) (r v : Byte) : (d.store b r v).cross = d.cross := rfl
@[simp] theorem Double.store_fail (b : Nat) (r v : Byte) : (d.store b r v).fail = d.fail := rfl

@[simp] theorem Double.store_read_same (b : Nat) (r v : Byte) :
    (d.store b r v).mem.read (regAddr (BitVec.ofNat 3 b) r) = some v := by
  rw [store, Memory.read_write, if_pos rfl]

theorem Double.store_read_other {b : Nat} {r : Byte} (v : Byte) {a : Nat} (h : a ≠ regAddr (BitVec.ofNat 3 b) r) :
    (d.store b r v).mem.read a = d.mem.read a := by
  rw [store, Memory.read_write, if_neg h]

theorem landWrite_write (m : Memory) (b : Nat) (r v : Byte) :
    Double.landWrite m (requestFrame ⟨.write, b, r, v⟩) = m.write (regAddr (BitVec.ofNat 3 b) r) v := by
  unfold Double.landWrite
  rw [show unframe (requestFrame ⟨.write, b, r, v⟩) = _ from unframe_frame_opcode b .write r v]

theorem Double.transfer_write (hf : d.fail = none) (b : Nat) (r v : Byte) :
    d.transfer (requestFrame ⟨.write, b, r, v⟩) = (d.store b r v, some (.ok ⟨0x00#8, 0x00#8, v⟩)) := by
  unfold Double.transfer Double.store
  rw [hf, show unframe (requestFrame ⟨.write, b, r, v⟩) = _ from unframe_frame_opcode b .write r v, landWrite_write]

theorem Double.transfer_read (hf : d.fail = none) (b : Nat) (r x : Byte) :
    d.transfer (requestFrame ⟨.read, b, r, x⟩) =
      (d, (d.readByte (BitVec.ofNat 3 b) r).map fun v => .ok ⟨0x00#8, 0x00#8, v⟩) := by
  unfold Double.transfer
  rw [hf, show unframe (requestFrame ⟨.read, b, r, x⟩) = _ from unframe_frame_opcode b .read r Config.readFill]

theorem Double.transfer_write_fails {f : InjectedFailure} (hf : d.fail = some f) (b : Nat) (r v : Byte) :
    d.transfer (requestFrame ⟨.write, b, r, v⟩) =
      ({ d with fail := none, mem := if f.landed then (d.store b r v).mem else d.mem }, some (.err (.io f.code))) := by
  unfold Double.transfer
  rw [hf, landWrite_write]
  rfl

theorem Double.readByte_straight (a : BitVec 3) {r : Byte} (h : d.cross = false ∨ r ≠ 0x13#8) :
    d.readByte a r = d.mem.read (regAddr a r) :=
  if_neg fun ⟨crossed, portB⟩ => h.elim (by simp [crossed]) (absurd portB)

theorem Double.readByte_crossed (h : d.cross = true) (a : BitVec 3) :
    d.readByte a 0x13#8 = (d.mem.read (regAddr a 0x12#8)).map (· ^^^ 0xFF#8) :=
  if_pos ⟨h, rfl⟩

/-- Settles O40: ISSUE over an open Transport is a transfer of the double. -/
theorem writeStoresOneRegister : Obligations.WriteStoresOneRegister := by
  unfold Obligations.WriteStoresOneRegister
  intro s d b r v hb ht hd hf
  have issued (c : Command) := exec_command_issue c hb (by simp [ht])
  have device (c : Command) := State.doubleAfter_double s (requestFrame c) ht hd
  have answer (c : Command) := State.settledAnswer_double s (requestFrame c) ht hd
  constructor
  · refine ⟨_, d.store b r v, issued ⟨.write, b, r, v⟩, ?_, ?_, rfl, hf, d.store_read_same b r v,
      fun a => d.store_read_other v⟩
    · rw [State.issue_double, device, Double.transfer_write hf]
    · rw [State.issue_rx, answer, Double.transfer_write hf]
  · refine ⟨_, issued ⟨.read, b, r, 0x00#8⟩, ?_, fun straight => ?_, fun crossed portB => ?_⟩
    · rw [State.issue_double, device, Double.transfer_read hf]
    · rw [State.issue_rx, answer, Double.transfer_read hf, Double.readByte_straight _ straight]
    · subst portB
      rw [State.issue_rx, answer, Double.transfer_read hf, Double.readByte_crossed crossed, Option.map_map]
      rfl

/-! ### A whole transaction over the double -/

/-- An idle block with an open Transport and the device `d` behind it. -/
structure OverDevice (s : State) (d : Double) : Prop where
  idle : Idle s
  opened : s.tstate = .opened
  device : s.double = some d

/-- A transaction that the double answers. -/
theorem hostTransact_device (h : OverDevice s d) (c : Command) {d' : Double} {a : Answer}
    (ht : d.transfer (requestFrame c) = (d', some a)) :
    ∃ t, OverDevice t d' ∧ t.bus = s.bus ++ [requestFrame c] ∧ hostTransact c s = HostRun.ofResult a.toResult t := by
  obtain ⟨idle, opened, device⟩ := h
  have settled : settledAnswer (requestFrame c) s = some a := by rw [State.settledAnswer_double s _ opened device, ht]
  have after : doubleAfter (requestFrame c) s = some d' := by rw [State.doubleAfter_double s _ opened device, ht]
  exact ⟨_, ⟨afterTransaction_idle _ _ _ _, opened, after⟩, State.busAfter_opened s _ opened,
    hostTransact_settled c idle (by simp [opened]) settled⟩

theorem hostTransact_write_device (h : OverDevice s d) (hf : d.fail = none) (b : Nat) (r v : Byte) :
    ∃ t, OverDevice t (d.store b r v) ∧ t.bus = s.bus ++ [requestFrame ⟨.write, b, r, v⟩] ∧
      hostTransact ⟨.write, b, r, v⟩ s = .done (.ok v) t :=
  hostTransact_device h _ (Double.transfer_write hf b r v)

theorem hostTransact_read_device (h : OverDevice s d) (hf : d.fail = none) {b : Nat} {r v : Byte} (x : Byte)
    (known : d.readByte (BitVec.ofNat 3 b) r = some v) :
    ∃ t, OverDevice t d ∧ t.bus = s.bus ++ [requestFrame ⟨.read, b, r, x⟩] ∧
      hostTransact ⟨.read, b, r, x⟩ s = .done (.ok v) t :=
  hostTransact_device h _ ((Double.transfer_read hf b r x).trans (by rw [known]; rfl))

/-- Settles O41: the write stores the byte, and the read is answered from the store. -/
theorem writeThenReadBack : Obligations.WriteThenReadBack := by
  unfold Obligations.WriteThenReadBack
  intro s d b r v idle opened device hf straight
  obtain ⟨t, stored, busWrite, wrote⟩ := hostTransact_write_device ⟨idle, opened, device⟩ hf b r v
  have known : (d.store b r v).readByte (BitVec.ofNat 3 b) r = some v :=
    (Double.readByte_straight (d := d.store b r v) _ (.inl straight)).trans (d.store_read_same b r v)
  obtain ⟨u, kept, busRead, read⟩ := hostTransact_read_device stored hf 0x00#8 known
  refine ⟨t, u, _, wrote, read, kept.device, fun a => d.store_read_other v, ?_⟩
  rw [busRead, busWrite, List.append_assoc]
  rfl

/-- Settles O42: the double gives its injected error to the write, whether or not the write has landed. -/
theorem failedWriteOldOrNew : Obligations.FailedWriteOldOrNew := by
  unfold Obligations.FailedWriteOldOrNew
  intro s d n landed b r v idle opened device hf
  obtain ⟨t, after, -, failed⟩ := hostTransact_device ⟨idle, opened, device⟩ _ (Double.transfer_write_fails hf b r v)
  refine ⟨t, _, failed, after.device, rfl, ?register, fun a ha => ?others⟩
  case register => cases landed <;> simp
  case others => cases landed <;> simp [Double.store_read_other v ha]

/-! ### Two hosts that interleave (R156) -/

variable {α β : Type}

theorem advance_transact {c : Command} {k : Byte → HostProg α} {v : Byte} {t : State}
    (h : hostTransact c s = .done (.ok v) t) : (HostProg.transact c k).advance s = .done (.ok (k v)) t := by
  simp [HostProg.advance, h]

theorem interleave_nil (p : HostProg α) (q : HostProg β) (s : State) : interleave [] p q s = .done (.ok (p, q)) s := rfl

theorem interleave_first {p p' : HostProg α} {q : HostProg β} {l : List Bool} {t : State}
    (h : p.advance s = .done (.ok p') t) : interleave (true :: l) p q s = interleave l p' q t := by
  rw [interleave, h]

theorem interleave_second {p : HostProg α} {q q' : HostProg β} {l : List Bool} {t : State}
    (h : q.advance s = .done (.ok q') t) : interleave (false :: l) p q s = interleave l p q' t := by
  rw [interleave, h]

theorem digitalWrite_onPort {p : Nat} (hp : p < 8) (value : Int) (b : Nat) :
    digitalWrite p value b = readModifyWrite Config.portA value (1#8 <<< p) b := by
  rw [digitalWrite_eq, withMask_ok (by omega) (by omega)]
  rfl

/-- The output register of a board as the device answers a read of it: the cross-wiring does not touch it. -/
theorem readByte_portA (b : Nat) :
    d.readByte (BitVec.ofNat 3 b) Config.portA = d.mem.read (regAddr (BitVec.ofNat 3 b) Config.portA) :=
  Double.readByte_straight _ (.inr (by decide))

/-- The reading half of a read-modify-write of the output register. -/
theorem readModifyWrite_read (h : OverDevice s d) (hf : d.fail = none) {b : Nat} {v : Byte}
    (known : d.mem.read (regAddr (BitVec.ofNat 3 b) Config.portA) = some v) (value : Int) (m : Byte) :
    ∃ t, OverDevice t d ∧ (readModifyWrite Config.portA value m b).advance s =
      .done (.ok (writeRegister Config.portA (updatedByte value v m) b)) t := by
  obtain ⟨t, after, -, read⟩ := hostTransact_read_device h hf Config.readFill ((readByte_portA b).trans known)
  exact ⟨t, after, advance_transact read⟩

/-- The writing half. -/
theorem writeRegister_advance (h : OverDevice s d) (hf : d.fail = none) (b : Nat) (r v : Byte) :
    ∃ t, OverDevice t (d.store b r v) ∧ (writeRegister r v b).advance s = .done (.ok (.ret (.ok v))) t := by
  obtain ⟨t, after, -, wrote⟩ := hostTransact_write_device h hf b r v
  exact ⟨t, after, advance_transact wrote⟩

/-- Settles O51: unserialised, both hosts read the old byte, and the second write overwrites the first; serialised, the second
host reads what the first one stored. -/
theorem lostUpdateIsAdmitted : Obligations.LostUpdateIsAdmitted := by
  unfold Obligations.LostUpdateIsAdmitted
  intro s d b v p q idle opened device hf known hp hq
  rw [digitalWrite_onPort hp, digitalWrite_onPort hq]
  have start : OverDevice s d := ⟨idle, opened, device⟩
  obtain ⟨s₁, read, first⟩ := readModifyWrite_read start hf known 1 (1#8 <<< p)
  constructor
  · obtain ⟨s₂, read₂, second⟩ := readModifyWrite_read read hf known 1 (1#8 <<< q)
    obtain ⟨s₃, wrote, third⟩ := writeRegister_advance read₂ hf b Config.portA (updatedByte 1 v (1#8 <<< p))
    obtain ⟨s₄, wrote₂, fourth⟩ := writeRegister_advance wrote hf b Config.portA (updatedByte 1 v (1#8 <<< q))
    have order := (interleave_first first).trans <| (interleave_second second).trans <|
      (interleave_first third).trans <| (interleave_second fourth).trans (interleave_nil _ _ _)
    exact ⟨_, s₄, _, order, wrote₂.device, Double.store_read_same b _ _⟩
  · obtain ⟨s₂, wrote, second⟩ := writeRegister_advance read hf b Config.portA (updatedByte 1 v (1#8 <<< p))
    obtain ⟨s₃, read₂, third⟩ := readModifyWrite_read wrote hf (Double.store_read_same b _ _) 1 (1#8 <<< q)
    obtain ⟨s₄, wrote₂, fourth⟩ := writeRegister_advance read₂ hf b Config.portA
      (updatedByte 1 (updatedByte 1 v (1#8 <<< p)) (1#8 <<< q))
    have order := (interleave_first first).trans <| (interleave_first second).trans <|
      (interleave_second third).trans <| (interleave_second fourth).trans (interleave_nil _ _ _)
    exact ⟨_, s₄, _, order, wrote₂.device, Double.store_read_same b _ _⟩

/-! ### A pin written and read back over the cross-wired double (S12) -/

theorem run_transact_done {c : Command} {v : Byte} {t : State} (h : hostTransact c s = .done (.ok v) t)
    (k : Byte → HostProg α) (q : OpenOutcome) : (HostProg.transact c k).run q s = (k v).run q t := by
  rw [HostProg.run, h]

/-- A read-modify-write of the output register stores the changed byte. -/
theorem run_readModifyWrite_device (h : OverDevice s d) (hf : d.fail = none) {b : Nat} {v : Byte}
    (known : d.mem.read (regAddr (BitVec.ofNat 3 b) Config.portA) = some v) (value : Int) (m : Byte) (q : OpenOutcome) :
    ∃ t, OverDevice t (d.store b Config.portA (updatedByte value v m)) ∧
      (readModifyWrite Config.portA value m b).run q s = .done (.ok (updatedByte value v m)) t := by
  obtain ⟨t, after, -, read⟩ := hostTransact_read_device h hf Config.readFill ((readByte_portA b).trans known)
  obtain ⟨u, stored, -, wrote⟩ := hostTransact_write_device after hf b Config.portA (updatedByte value v m)
  exact ⟨u, stored, (run_transact_done read _ q).trans (run_transact_done wrote _ q)⟩

/-- Over the cross-wired double digital_read of a pin gives the bit of the output register. -/
theorem run_digitalRead_crossed (h : OverDevice s d) (hf : d.fail = none) (crossed : d.cross = true) {b : Nat} {v : Byte}
    (known : d.mem.read (regAddr (BitVec.ofNat 3 b) Config.portA) = some v) {p : Nat} (hp : p < 8) (q : OpenOutcome) :
    ∃ t, OverDevice t d ∧ (digitalRead p b).run q s = .done (.ok (if v.getLsbD p = true then 1 else 0)) t := by
  have inverted : d.readByte (BitVec.ofNat 3 b) Config.portB = some (v ^^^ 0xFF#8) :=
    (Double.readByte_crossed crossed _).trans (congrArg _ known)
  obtain ⟨t, after, -, read⟩ := hostTransact_read_device h hf Config.readFill inverted
  refine ⟨t, after, ?_⟩
  rw [digitalRead_eq, withMask_ok (by omega) (by omega), readPin, run_transact_done read, Int.toNat_natCast,
    maskedBit_inverted _ hp, xor_ff_eq_not]
  simp [hp, HostProg.run]

/-- Settles O53: the write stores the byte with the pin's bit changed, and the read gives that bit. -/
theorem crossWiredPinReadsBack : Obligations.CrossWiredPinReadsBack := by
  unfold Obligations.CrossWiredPinReadsBack
  intro s d b v p value q idle opened device hf crossed known hp
  obtain ⟨t, stored, wrote⟩ := run_readModifyWrite_device ⟨idle, opened, device⟩ hf known value (1#8 <<< p) q
  obtain ⟨u, kept, read⟩ := run_digitalRead_crossed stored hf crossed (Double.store_read_same b _ _) hp q
  have bit : (updatedByte value v (1#8 <<< p)).getLsbD p = decide (value ≠ 0) :=
    (getLsbD_updatedByte value v hp).trans (if_pos rfl)
  refine ⟨t, u, _, _, by rw [digitalWrite_onPort hp, wrote], ?_, kept.device, ?_⟩
  · simpa [bit] using read
  · rw [show 0x12#8 = Config.portA from rfl, Double.store_read_same, updatedByte, xor_ff_eq_not]

end Sys2Proof.Machine
end
